-- ==== Sys2Proof/Word.lean ====
section
/-! DEFINITION. The byte, the only machine word of the block (spec/00_scope.md R6). -/

namespace Sys2Proof

/-- A byte: 8 bits, unsigned, 0 to 255, on the wire, in the buffer, in registers and payloads (R6). -/
abbrev Byte := BitVec 8

end Sys2Proof
end

