-- ==== Sys2Proof/Config.lean ====
section
/-! DEFINITION. What is fixed when the block is built: the synthesis-time parameters of spec/00_scope.md R7 as named
constants with the spec's values, and the parameters of R8 that the spec leaves OPEN or keeps configurable as one
record that each instance carries; and the one value the spec leaves unstated, as a free value. -/

namespace Sys2Proof

namespace Config

/-- `START_BYTE` (R7). -/
def startByte : Byte := 254
/-- `STOP_BYTE` (R7). -/
def stopByte : Byte := 255
/-- `BUF_CAP_INIT` (R7): the receive buffer's capacity after reset. -/
def bufCapInit : Nat := 32
/-- `BUF_GROW_FACTOR` (R7). -/
def bufGrowFactor : Nat := 2
/-- `TBL_GROW_MARGIN` (R7). -/
def tblGrowMargin : Nat := 5
/-- `BUILTIN_COUNT` (R7). -/
def builtinCount : Nat := 10
/-- `STATUS_SEP` (R7): the third byte of each status triple. -/
def statusSep : Byte := 0x7C
/-- `AFAC_DEFAULT` (R7). -/
def afacDefault : Byte := 200
/-- `ALEN_DEFAULT` (R7; inferred by the spec, decision D5, log 12). -/
def alenDefault : Byte := 1
/-- `ALEN_MIN` (R7): what an address length of 0 is clamped to. -/
def alenMin : Byte := 1
/-- `LOGEN_RESET` (R8; the spec's decision D6, log 12). -/
def logenReset : Bool := false
/-- `BUF_CLEAR_VALUE` (R8; the spec's decision D12): what a cleared byte of `RXBUF` holds, and what an
unlisted address of the model's memory reads as (log 11). -/
def bufClearValue : Byte := 0x00

/-- A free value: the byte `ENCODE(a, w, f)` writes at place `k` (0 the least significant) for a digit of 256 or more, which
no byte holds and for which R156 of 42_address_codec.md states no byte. It depends on nothing but the operands, since
`ENCODE` is pure (R155); its first argument is `a mod f^w`, so that R157 holds (DESIGN CHOICE, log 25). -/
opaque wideDigit (a w f k : Nat) : Byte

/-- A sentinel is `START_BYTE` or `STOP_BYTE` (R13, R91). -/
def isSentinel (b : Byte) : Bool := b == startByte || b == stopByte

end Config

/-- The parameters of R8 that are OPEN (`BUF_CAP_MAX`, `ADDR_W`, `TBL_CAP_INIT`) or kept as configuration fields
(the three status tags). They are arguments of the model: an instance carries its own and no step changes them
(DESIGN CHOICE, log 5). -/
structure BuildParams where
  /-- `BUF_CAP_MAX`: none, or the largest capacity `RXBUF` may grow to (R145, D11). -/
  bufCapMax : Option Nat
  /-- `ADDR_W`: none, or the width in bits a decoded address must fit (R164, D4). -/
  addrW : Option Nat
  /-- `TBL_CAP_INIT`: the slot count of the user table after reset (R35, D20). -/
  tblCapInit : Nat
  /-- `TAG_ALEN`, `TAG_AFAC`, `TAG_LOGEN`: the tag bytes of the status reply (R101, D13). -/
  tagAlen : Byte
  tagAfac : Byte
  tagLogen : Byte
  deriving DecidableEq, Repr

/-- The defaults of the table of open parameters in spec/92_eei_decisions.md. -/
def BuildParams.default : BuildParams :=
  { bufCapMax := none, addrW := none, tblCapInit := 0, tagAlen := 0, tagAfac := 1, tagLogen := 8 }

/-- What R8 and the table of 92_eei_decisions.md ask of the parameters: `BUF_CAP_MAX` is none or at least
`BUF_CAP_INIT`, and no tag is a sentinel. -/
def BuildParams.ok (p : BuildParams) : Bool :=
  (match p.bufCapMax with
    | none => true
    | some m => decide (Config.bufCapInit ≤ m)) &&
  !Config.isSentinel p.tagAlen && !Config.isSentinel p.tagAfac && !Config.isSentinel p.tagLogen

end Sys2Proof
end

