-- ==== Sys2Proof/Syntax.lean ====
section
/-! DEFINITION. The operations of the block ("instructions", spec/00_scope.md R12): one constructor for each of the 28
rows of spec/opcode_table.json, with the row's operands; the host's transactions (46_host_operations.md R220); the error
record that `RAISE` takes (60_exceptions.md R240). -/

namespace Sys2Proof

/-- The record of an error, by its code (60_exceptions.md R240): what `RAISE(code, fields)` is given. -/
inductive ErrorRec where
  /-- `E1 SizeMismatch`: the declared length, the accumulated length and the accumulated bytes (R241). -/
  | sizeMismatch (declared accumulated : Nat) (data : List Byte)
  /-- `E2 RuntFrame`: the frame's length, the address length and the frame (R242). -/
  | runtFrame (declared addressLength : Nat) (data : List Byte)
  deriving DecidableEq, Repr

/-- A transaction of the host (46_host_operations.md R220), written as 30_encoding.md R103 writes it. -/
inductive HostTx where
  | feed (b : Byte)
  | write (address : Nat) (payload : List Byte)
  | register (a : Nat)
  | setGeneric (on : Bool)
  | setErrcb
  | reset
  deriving DecidableEq, Repr

/-- The operations, in the table's order. -/
inductive Instr where
  /-- `FEED(b)`, R120. -/
  | feed (b : Byte)
  /-- `RX.START`, R122. -/
  | rxStart
  /-- `RX.STOP`, R124. -/
  | rxStop
  /-- `RX.LEN(b)`, R126. -/
  | rxLen (b : Byte)
  /-- `RX.DATA(b)`, R128. -/
  | rxData (b : Byte)
  /-- `BUF.CLEAR`, R140. -/
  | bufClear
  /-- `BUF.APPEND(b)`, R143. -/
  | bufAppend (b : Byte)
  /-- `BUF.GROW`, R144. -/
  | bufGrow
  /-- `BUF.SNAPSHOT`, R147. -/
  | bufSnapshot
  /-- `ENCODE(a, w, f)`, R156. -/
  | encode (a w f : Nat)
  /-- `DECODE(bytes, w, f)`, R158. -/
  | decode (bytes : List Byte) (w f : Nat)
  /-- `WRITE(address, payload)`, R171. -/
  | write (address : Nat) (payload : List Byte)
  /-- `DISPATCH(frame)`, R180. -/
  | dispatch (frame : List Byte)
  /-- `REGISTER(a)`, R190. -/
  | register (a : Nat)
  /-- `CMD0`, set-address-length, R200. -/
  | cmd0 (address : Nat) (payload : List Byte)
  /-- `CMD1`, set-address-factor, R201. -/
  | cmd1 (address : Nat) (payload : List Byte)
  /-- `CMD2`, reserved, R202. -/
  | cmd2 (address : Nat) (payload : List Byte)
  /-- `CMD3`, reserved, R202. -/
  | cmd3 (address : Nat) (payload : List Byte)
  /-- `CMD4`, reserved, R202. -/
  | cmd4 (address : Nat) (payload : List Byte)
  /-- `CMD5`, reserved, R202. -/
  | cmd5 (address : Nat) (payload : List Byte)
  /-- `CMD6`, reserved, R202. -/
  | cmd6 (address : Nat) (payload : List Byte)
  /-- `CMD7`, reserved, R202. -/
  | cmd7 (address : Nat) (payload : List Byte)
  /-- `CMD8`, set-log-enabled, R203. -/
  | cmd8 (address : Nat) (payload : List Byte)
  /-- `CMD9`, get-status, R204. -/
  | cmd9 (address : Nat) (payload : List Byte)
  /-- `SETGENERIC(on)` or `SETGENERIC(off)`, R222. -/
  | setGeneric (on : Bool)
  /-- `SETERRCB`, R223. -/
  | setErrcb
  /-- `RESET`, R270. -/
  | reset
  /-- `RAISE(code, fields)`, R244. -/
  | raise (e : ErrorRec)
  deriving DecidableEq, Repr

/-- The operations' names, in the table's order. -/
inductive Mnemonic where
  | feed | rxStart | rxStop | rxLen | rxData | bufClear | bufAppend | bufGrow | bufSnapshot | encode | decode | write
  | dispatch | register | cmd0 | cmd1 | cmd2 | cmd3 | cmd4 | cmd5 | cmd6 | cmd7 | cmd8 | cmd9
  | setGeneric | setErrcb | reset | raise
  deriving DecidableEq, Repr

/-- An operation's name as spec/opcode_table.json spells it. -/
def Mnemonic.text : Mnemonic → String
  | .feed => "FEED"
  | .rxStart => "RX.START"
  | .rxStop => "RX.STOP"
  | .rxLen => "RX.LEN"
  | .rxData => "RX.DATA"
  | .bufClear => "BUF.CLEAR"
  | .bufAppend => "BUF.APPEND"
  | .bufGrow => "BUF.GROW"
  | .bufSnapshot => "BUF.SNAPSHOT"
  | .encode => "ENCODE"
  | .decode => "DECODE"
  | .write => "WRITE"
  | .dispatch => "DISPATCH"
  | .register => "REGISTER"
  | .cmd0 => "CMD0"
  | .cmd1 => "CMD1"
  | .cmd2 => "CMD2"
  | .cmd3 => "CMD3"
  | .cmd4 => "CMD4"
  | .cmd5 => "CMD5"
  | .cmd6 => "CMD6"
  | .cmd7 => "CMD7"
  | .cmd8 => "CMD8"
  | .cmd9 => "CMD9"
  | .setGeneric => "SETGENERIC"
  | .setErrcb => "SETERRCB"
  | .reset => "RESET"
  | .raise => "RAISE"

end Sys2Proof
end

