-- ==== Sys2Proof/Machine/State.lean ====
section
/-! DEFINITION. The state of one instance as plain data: the spec's tuple (spec/10_state.md R20) and the model's own
fields; the events (00_scope.md R11); why a step can stop; the state after reset (R45). -/

namespace Sys2Proof.Machine

/-- Whom an `Invoke` event calls (00_scope.md R11). -/
inductive Target where
  | generic
  | user
  | builtin
  deriving DecidableEq, Repr

/-- An output event of a step (00_scope.md R11, 46_host_operations.md R227). -/
inductive Event where
  /-- `Frame(bytes)`: a completed frame left the assembler. -/
  | frame (bytes : List Byte)
  /-- `Invoke(target, address, payload)`; the payload is carried by value (20_memory.md R67, D22). -/
  | invoke (target : Target) (address : Nat) (payload : List Byte)
  /-- `Tx(bytes)`: one bulk write to the transport. -/
  | tx (bytes : List Byte)
  /-- `Error(code, fields, logged, delivered)` (60_exceptions.md R244). -/
  | error (e : ErrorRec) (logged delivered : Bool)
  deriving DecidableEq, Repr

/-- What an operation that returns a value returned: `BUF.SNAPSHOT` and `ENCODE` bytes, `DECODE` a number (log 4). -/
inductive Value where
  | bytes (bs : List Byte)
  | nat (n : Nat)
  deriving DecidableEq, Repr

/-- The bytes of `RXBUF`: cells (address, byte) in canonical form, addresses strictly rising and no byte equal to
what an unlisted address reads as (log 11). -/
abbrev Memory := List Host.Cell

/-- The state. The first twelve fields are the spec's (R20); the last five are the model's own (logs 1 to 5). -/
structure State where
  /-- `RX_MSIZE` (R22): the declared length, 0 while not known. -/
  rxMsize : Byte
  /-- `RX_BIDX` (R23): the write cursor. -/
  rxBidx : Nat
  /-- `RX_CAP` (R25): the bytes allocated to `RXBUF`. -/
  rxCap : Nat
  /-- `RXBUF` (R26). -/
  rxBuf : Memory
  /-- `CFG_ALEN` (R27): the address length. -/
  cfgAlen : Byte
  /-- `CFG_AFAC` (R28): the radix. -/
  cfgAfac : Byte
  /-- `CFG_LOGEN` (R29). -/
  cfgLogen : Bool
  /-- `GEN_SET` (R33). -/
  genSet : Bool
  /-- `ERRCB_SET` (R34). -/
  errcbSet : Bool
  /-- `TBL_CAP` (R35). -/
  tblCap : Nat
  /-- `TBL` (R35, R193): the occupied slots, strictly rising. -/
  tbl : List Nat
  /-- `BI` (R37): whether slot `a` holds `CMDa`. -/
  bi : Vector Bool 10
  /-- The parameters this instance was built with (00_scope.md R8, log 5). -/
  build : BuildParams
  /-- The host's transactions not yet performed, oldest first (46_host_operations.md R220, log 1). -/
  hostIn : List HostTx
  /-- For each coming invocation of a handler or callback, the host calls made inside it (R284, log 3). -/
  hostCalls : List (List HostTx)
  /-- The events emitted so far, oldest first (R11, log 2). -/
  events : List Event
  /-- The value the last value-returning operation run by itself returned (log 4). -/
  ret : Option Value
  deriving DecidableEq, Repr

/-- Why a step stops with a fault (60_exceptions.md R256). Each carries the events that had happened when it
arose (R248). All are safe: nothing is claimed of a run after one. -/
inductive Fault where
  /-- `BufferExhausted`, raised by `BUF.GROW` where the capacity would pass a finite `BUF_CAP_MAX` (R145). Safe. -/
  | bufferExhausted (happened : List Event)
  /-- `EncodeRadixZero`, raised by `ENCODE` with radix 0, so by `WRITE` and `CMD9` (R161). Safe. -/
  | encodeRadixZero (happened : List Event)
  /-- `TxLengthOverflow`, raised by `WRITE` where `CFG_ALEN + len(payload) > 255` (R172). Safe. -/
  | txLengthOverflow (happened : List Event)
  /-- `AddressOverflow`, raised by `DECODE` where the result does not fit a finite `ADDR_W` (R164). Safe. -/
  | addressOverflow (happened : List Event)
  /-- The model's own: a `MemRead` or `MemWrite` outside `RXBUF`, which R10 rules out by `addr + n <= RX_CAP`; raised
  by the buffer operations, in no state that meets the model's invariant (log 6). Safe. -/
  | bufferRange (happened : List Event)
  deriving DecidableEq, Repr

/-- Why the model gives no step. All are safe: nothing is claimed of such a run. -/
inductive Refusal where
  /-- An instruction without a meaning in this model: raised by no arm of `exec` (all have one). Safe. -/
  | notModelled (mnemonic : String)
  /-- A host transaction other than `WRITE` from inside a handler or callback (60_exceptions.md R257, R282, R283);
  raised where a handler's calls are performed. Safe. -/
  | insideHandler (t : HostTx)
  /-- `DECODE` of fewer bytes than the width, outside its domain (R158, log 7); raised by `DECODE`. Safe. -/
  | shortField
  deriving DecidableEq, Repr

/-- An outcome of this machine. -/
abbrev Out := Host.Outcome State Fault Refusal

/-- The state after reset of an instance built with `p` (R45, R270): nothing pending, nothing emitted. -/
def State.resetWith (p : BuildParams) : State :=
  { rxMsize := 0
    rxBidx := 0
    rxCap := Config.bufCapInit
    rxBuf := []
    cfgAlen := Config.alenDefault
    cfgAfac := Config.afacDefault
    cfgLogen := Config.logenReset
    genSet := false
    errcbSet := false
    tblCap := p.tblCapInit
    tbl := []
    bi := Vector.replicate 10 true
    build := p
    hostIn := []
    hostCalls := []
    events := []
    ret := none }

/-- The machine right after reset, built with the spec's default parameters. -/
def State.reset : State := State.resetWith BuildParams.default

end Sys2Proof.Machine
end

