-- ==== Sys2Proof/Machine/Flags.lean ====
section
/-! DEFINITION. The conditions the rules test, as functions of the registers (spec/10_state.md R32: the block stores no
flags), the occupancy tests of the two tables, and the bounds of the OPEN parameters. -/

namespace Sys2Proof.Machine

/-- `LEN_KNOWN := RX_MSIZE != 0` (R32). -/
def State.lenKnown (s : State) : Bool := s.rxMsize != 0

/-- `COMPLETE := RX_BIDX == RX_MSIZE`, true also when both are 0 (R32). -/
def State.complete (s : State) : Bool := s.rxBidx == s.rxMsize.toNat

/-- `BUF_FULL := RX_BIDX == RX_CAP` (R32). -/
def State.bufFull (s : State) : Bool := s.rxBidx == s.rxCap

/-- `OVERRUN := RX_MSIZE != 0 and RX_BIDX > RX_MSIZE` (R32). -/
def State.overrun (s : State) : Bool := s.lenKnown && decide (s.rxMsize.toNat < s.rxBidx)

/-- The implicit states of the receive machine (R32). -/
inductive Phase where
  | waitLen
  | accum
  | full
  | overrun
  deriving DecidableEq, Repr

/-- The implicit state the registers are in (R32). -/
def State.phase (s : State) : Phase :=
  if !s.lenKnown then .waitLen
  else if s.rxBidx < s.rxMsize.toNat then .accum
  else if s.complete then .full
  else .overrun

/-- `TBL[a]` is occupied: the slot exists and its bit is set (R35, 44_dispatcher.md R180). -/
def State.userSlot (s : State) (a : Nat) : Bool := decide (a < s.tblCap) && s.tbl.contains a

/-- `BI[a]` is within the built-in table and non-empty (44_dispatcher.md R184, 10_state.md R37). -/
def State.builtinSlot (s : State) (a : Nat) : Bool := decide (a < Config.builtinCount) && (s.bi[a]?).getD false

/-- A capacity the instance's buffer can have: no `BUF_CAP_MAX`, or not above it (41_receive_buffer.md R145). -/
def capAllowed (p : BuildParams) (cap : Nat) : Bool :=
  match p.bufCapMax with
  | none => true
  | some m => decide (cap ≤ m)

/-- A decoded address the instance can hold: no `ADDR_W`, or below `2^ADDR_W` (42_address_codec.md R164). -/
def addrFits (p : BuildParams) (a : Nat) : Bool :=
  match p.addrW with
  | none => true
  | some w => decide (a < 2 ^ w)

end Sys2Proof.Machine
end

