-- ==== Sys2Proof/WellFormed.lean ====
section
/-! DEFINITION. The domain of each operation's operands, as its rule in spec/ states it: what a caller of the block,
or the block itself, can give it. The meanings are defined on more than this. -/

namespace Sys2Proof

/-- No byte of the list is a sentinel (30_encoding.md R91). -/
def sentinelFree (bs : List Byte) : Bool := bs.all fun b => !Config.isSentinel b

/-- The record fits its code (60_exceptions.md R240, R241, R242): `E1` has two different sizes and as many bytes as
accumulated; `E2` has a frame of the declared length, shorter than the address field. -/
def ErrorRec.wf : ErrorRec → Bool
  | .sizeMismatch declared accumulated data => decide (declared ≠ accumulated) && decide (data.length = accumulated)
  | .runtFrame declared addressLength data =>
    decide (data.length = declared) && decide (declared < addressLength)

/-- A built-in command's operands: its own address and a payload without sentinels (45_builtin_commands.md R206). -/
def commandWf (own address : Nat) (payload : List Byte) : Bool := decide (address = own) && sentinelFree payload

/-- The operands are in the domain the operation's rule states. -/
def Instr.wf : Instr → Bool
  | .feed _ => true
  | .rxStart => true
  | .rxStop => true
  | .rxLen b => !Config.isSentinel b
  | .rxData b => !Config.isSentinel b
  | .bufClear => true
  | .bufAppend _ => true
  | .bufGrow => true
  | .bufSnapshot => true
  | .encode _ w _ => decide (1 ≤ w)
  | .decode bytes w _ => decide (1 ≤ w) && decide (w ≤ bytes.length)
  | .write _ _ => true
  | .dispatch frame => decide (frame.length ≤ 253) && sentinelFree frame
  | .register _ => true
  | .cmd0 a p => commandWf 0 a p
  | .cmd1 a p => commandWf 1 a p
  | .cmd2 a p => commandWf 2 a p
  | .cmd3 a p => commandWf 3 a p
  | .cmd4 a p => commandWf 4 a p
  | .cmd5 a p => commandWf 5 a p
  | .cmd6 a p => commandWf 6 a p
  | .cmd7 a p => commandWf 7 a p
  | .cmd8 a p => commandWf 8 a p
  | .cmd9 a p => commandWf 9 a p
  | .setGeneric _ => true
  | .setErrcb => true
  | .reset => true
  | .raise e => e.wf

end Sys2Proof
end

