-- ==== Sys2Proof/Decode.lean ====
section
/-! DEFINITION. What the block decodes (spec/30_encoding.md): the class of a received byte (R94), the radix address field
(42_address_codec.md), the wire frame (R90) and the command map (R99); the host's transactions; and the call form of the
table's rows that have no bits ("host transaction ...", "internal call ..."). After them the encoders. -/

namespace Sys2Proof

/-! ## The radix codec -/

/-- `ENCODE`'s digits: `w` digits of `a` in radix `f`, most significant first; what remains of `a` is dropped
(42_address_codec.md R156, R157). For `f = 0`, where `ENCODE` faults (R161), what it gives is this model's
(DESIGN CHOICE, log 26). -/
def encodeDigits : Nat → Nat → Nat → List Nat
  | _, 0, _ => []
  | a, w + 1, f => encodeDigits (a / f) w f ++ [a % f]

/-- Digits as bytes; exact when every digit is below 256, as it is for every radix up to 256 (R156),
the block's own among them; a larger digit is taken mod 256 (DESIGN CHOICE, log 26). `ENCODE` with a larger radix is
`Machine.encodeField`. -/
def digitBytes (ds : List Nat) : List Byte := ds.map (BitVec.ofNat 8)

/-- `DECODE`: the first `w` bytes, Horner form, no byte checked against the radix (42_address_codec.md R158). -/
def decodeAddress (bytes : List Byte) (w f : Nat) : Nat :=
  (bytes.take w).foldl (fun acc b => acc * f + b.toNat) 0

/-! ## Decoders -/

/-- Why a decoder gives no instruction. -/
inductive Reject where
  /-- The bytes do not begin with `START_BYTE` (R90). -/
  | noStart
  /-- No byte follows START (R90). -/
  | noLength
  /-- The bytes do not end with `STOP_BYTE` (R90). -/
  | noStop
  /-- A sentinel stands in LEN, ADDR or PAYLOAD (R91). -/
  | sentinelInside
  /-- LEN is not the number of body bytes (R90). -/
  | lengthMismatch
  /-- The body is shorter than the address field (R92). -/
  | runt
  /-- The address selects no built-in command (R99). -/
  | noBuiltin (address : Nat)
  /-- The operands are not of the number and kinds the operation takes. -/
  | badOperands (op : Mnemonic)
  /-- The operands are outside the domain the operation's rule states (`Instr.wf`). -/
  | illFormed (i : Instr)
  deriving DecidableEq, Repr

/-- A decoder's answer: the thing decoded or a rejection by name. -/
inductive Decoded (α : Type) where
  | ok (a : α)
  | reject (r : Reject)
  deriving DecidableEq, Repr

/-- The primary opcode map (R94): the byte, and whether a length is known (`RX_MSIZE` not 0), select exactly one of
the four receive operations; START before STOP before the rest. -/
def decodeByte (lenKnown : Bool) (b : Byte) : Instr :=
  if b = Config.startByte then .rxStart
  else if b = Config.stopByte then .rxStop
  else if lenKnown then .rxData b
  else .rxLen b

/-- The secondary opcode map (R99): the decoded address, compared in full, selects the built-in command. -/
def decodeCommand (address : Nat) (payload : List Byte) : Decoded Instr :=
  match address with
  | 0 => .ok (.cmd0 address payload)
  | 1 => .ok (.cmd1 address payload)
  | 2 => .ok (.cmd2 address payload)
  | 3 => .ok (.cmd3 address payload)
  | 4 => .ok (.cmd4 address payload)
  | 5 => .ok (.cmd5 address payload)
  | 6 => .ok (.cmd6 address payload)
  | 7 => .ok (.cmd7 address payload)
  | 8 => .ok (.cmd8 address payload)
  | 9 => .ok (.cmd9 address payload)
  | a + 10 => .reject (.noBuiltin (a + 10))

/-- A whole frame of the wire (R90 to R92) under address length `w` and radix `f`: its address and payload (R97). -/
def decodeWire (w f : Nat) : List Byte → Decoded (Nat × List Byte)
  | [] => .reject .noStart
  | [s] => if s = Config.startByte then .reject .noLength else .reject .noStart
  | s :: len :: tail =>
    if s ≠ Config.startByte then .reject .noStart
    else if tail.getLast? ≠ some Config.stopByte then .reject .noStop
    else if !sentinelFree (len :: tail.dropLast) then .reject .sentinelInside
    else if len.toNat ≠ tail.dropLast.length then .reject .lengthMismatch
    else if tail.dropLast.length < w then .reject .runt
    else .ok (decodeAddress tail.dropLast w f, tail.dropLast.drop w)

/-- A whole frame of the wire as the built-in command it selects where no user handler stands at its address (R207). -/
def decodeWireCommand (w f : Nat) (bs : List Byte) : Decoded Instr :=
  match decodeWire w f bs with
  | .ok (address, payload) => decodeCommand address payload
  | .reject r => .reject r

/-- The operation a host transaction performs (46_host_operations.md R220). -/
def decodeTx : HostTx → Instr
  | .feed b => .feed b
  | .write address payload => .write address payload
  | .register a => .register a
  | .setGeneric on => .setGeneric on
  | .setErrcb => .setErrcb
  | .reset => .reset

/-- One operand of a call form. -/
inductive Arg where
  | byte (b : Byte)
  | nat (n : Nat)
  | bytes (bs : List Byte)
  | bit (b : Bool)
  | error (e : ErrorRec)
  deriving DecidableEq, Repr

/-- The call form of the table's "encoding" column and of R103: the operation's name and its operands. -/
structure Call where
  op : Mnemonic
  args : List Arg
  deriving DecidableEq, Repr

/-- An operation whose operands are in their domain, or a rejection. -/
def checked (i : Instr) : Decoded Instr := if i.wf then .ok i else .reject (.illFormed i)

/-- The operation a call form denotes; total, and each rejection is named. -/
def decodeCall (c : Call) : Decoded Instr :=
  match c.op, c.args with
  | .feed, [.byte b] => checked (.feed b)
  | .rxStart, [] => checked .rxStart
  | .rxStop, [] => checked .rxStop
  | .rxLen, [.byte b] => checked (.rxLen b)
  | .rxData, [.byte b] => checked (.rxData b)
  | .bufClear, [] => checked .bufClear
  | .bufAppend, [.byte b] => checked (.bufAppend b)
  | .bufGrow, [] => checked .bufGrow
  | .bufSnapshot, [] => checked .bufSnapshot
  | .encode, [.nat a, .nat w, .nat f] => checked (.encode a w f)
  | .decode, [.bytes bs, .nat w, .nat f] => checked (.decode bs w f)
  | .write, [.nat a, .bytes p] => checked (.write a p)
  | .dispatch, [.bytes frame] => checked (.dispatch frame)
  | .register, [.nat a] => checked (.register a)
  | .cmd0, [.nat a, .bytes p] => checked (.cmd0 a p)
  | .cmd1, [.nat a, .bytes p] => checked (.cmd1 a p)
  | .cmd2, [.nat a, .bytes p] => checked (.cmd2 a p)
  | .cmd3, [.nat a, .bytes p] => checked (.cmd3 a p)
  | .cmd4, [.nat a, .bytes p] => checked (.cmd4 a p)
  | .cmd5, [.nat a, .bytes p] => checked (.cmd5 a p)
  | .cmd6, [.nat a, .bytes p] => checked (.cmd6 a p)
  | .cmd7, [.nat a, .bytes p] => checked (.cmd7 a p)
  | .cmd8, [.nat a, .bytes p] => checked (.cmd8 a p)
  | .cmd9, [.nat a, .bytes p] => checked (.cmd9 a p)
  | .setGeneric, [.bit on] => checked (.setGeneric on)
  | .setErrcb, [] => checked .setErrcb
  | .reset, [] => checked .reset
  | .raise, [.error e] => checked (.raise e)
  | op, _ => .reject (.badOperands op)

/-- The instruction read from a word numbered as spec/opcode_table.json numbers it. The table gives bits to received
bytes only (RX.START, RX.STOP), so a word is one byte, read with no length known, as it is after reset (log 8). -/
def decodeTableWord (nbits w : Nat) : Option Instr :=
  if nbits ≤ 8 then some (decodeByte false (BitVec.ofNat 8 (w % 2 ^ nbits))) else none

/-! ## Encoders -/

/-- `FRAME(a, p)` of R103, the wire form of R90: START, LEN, the address field, the payload, STOP. Total: where the spec
gives no frame (radix 0, R161; `L + n` above 255, R172) or no byte for a digit (radix above 256, R156), the bytes are this
encoder's own, LEN and each digit taken mod 256, a digit of radix 0 by `a mod 0 = a` and `a div 0 = 0` (DESIGN CHOICE,
log 26). `WRITE` never gets there: it faults first, and its radix is a byte. -/
def encodeWire (w f address : Nat) (payload : List Byte) : List Byte :=
  [Config.startByte, BitVec.ofNat 8 (w + payload.length)] ++ digitBytes (encodeDigits address w f) ++ payload ++
    [Config.stopByte]

/-- The received bytes that select the operation under address length `w` and radix `f`: the one byte of FEED and of
a receive operation, the frame of a built-in command (R207; outside the bounds of `WRITE` a DESIGN CHOICE, log 26).
The other rows have no bytes (`encodeCall` writes them). -/
def encode (w f : Nat) : Instr → List Byte
  | .feed b => [b]
  | .rxStart => [Config.startByte]
  | .rxStop => [Config.stopByte]
  | .rxLen b => [b]
  | .rxData b => [b]
  | .cmd0 a p => encodeWire w f a p
  | .cmd1 a p => encodeWire w f a p
  | .cmd2 a p => encodeWire w f a p
  | .cmd3 a p => encodeWire w f a p
  | .cmd4 a p => encodeWire w f a p
  | .cmd5 a p => encodeWire w f a p
  | .cmd6 a p => encodeWire w f a p
  | .cmd7 a p => encodeWire w f a p
  | .cmd8 a p => encodeWire w f a p
  | .cmd9 a p => encodeWire w f a p
  | .bufClear => []
  | .bufAppend _ => []
  | .bufGrow => []
  | .bufSnapshot => []
  | .encode _ _ _ => []
  | .decode _ _ _ => []
  | .write _ _ => []
  | .dispatch _ => []
  | .register _ => []
  | .setGeneric _ => []
  | .setErrcb => []
  | .reset => []
  | .raise _ => []

/-- The call form of an operation. -/
def encodeCall : Instr → Call
  | .feed b => ⟨.feed, [.byte b]⟩
  | .rxStart => ⟨.rxStart, []⟩
  | .rxStop => ⟨.rxStop, []⟩
  | .rxLen b => ⟨.rxLen, [.byte b]⟩
  | .rxData b => ⟨.rxData, [.byte b]⟩
  | .bufClear => ⟨.bufClear, []⟩
  | .bufAppend b => ⟨.bufAppend, [.byte b]⟩
  | .bufGrow => ⟨.bufGrow, []⟩
  | .bufSnapshot => ⟨.bufSnapshot, []⟩
  | .encode a w f => ⟨.encode, [.nat a, .nat w, .nat f]⟩
  | .decode bs w f => ⟨.decode, [.bytes bs, .nat w, .nat f]⟩
  | .write a p => ⟨.write, [.nat a, .bytes p]⟩
  | .dispatch frame => ⟨.dispatch, [.bytes frame]⟩
  | .register a => ⟨.register, [.nat a]⟩
  | .cmd0 a p => ⟨.cmd0, [.nat a, .bytes p]⟩
  | .cmd1 a p => ⟨.cmd1, [.nat a, .bytes p]⟩
  | .cmd2 a p => ⟨.cmd2, [.nat a, .bytes p]⟩
  | .cmd3 a p => ⟨.cmd3, [.nat a, .bytes p]⟩
  | .cmd4 a p => ⟨.cmd4, [.nat a, .bytes p]⟩
  | .cmd5 a p => ⟨.cmd5, [.nat a, .bytes p]⟩
  | .cmd6 a p => ⟨.cmd6, [.nat a, .bytes p]⟩
  | .cmd7 a p => ⟨.cmd7, [.nat a, .bytes p]⟩
  | .cmd8 a p => ⟨.cmd8, [.nat a, .bytes p]⟩
  | .cmd9 a p => ⟨.cmd9, [.nat a, .bytes p]⟩
  | .setGeneric on => ⟨.setGeneric, [.bit on]⟩
  | .setErrcb => ⟨.setErrcb, []⟩
  | .reset => ⟨.reset, []⟩
  | .raise e => ⟨.raise, [.error e]⟩

end Sys2Proof
end

