-- ==== Sys2Proof/Machine/Operands.lean ====
section
/-! DEFINITION. The operand forms: how a frame splits into address and payload (spec/30_encoding.md R97), what a built-in
command takes from its payload (45_builtin_commands.md R206), and the status reply's bytes (R101). -/

namespace Sys2Proof.Machine

/-- The address field: the first `L` bytes of the frame (R97, 44_dispatcher.md R181). -/
def addressField (w : Nat) (frame : List Byte) : List Byte := frame.take w

/-- The payload: everything after the address field, verbatim (R97, R181). -/
def payloadField (w : Nat) (frame : List Byte) : List Byte := frame.drop w

/-- The one payload byte that a configuration command reads, none if the payload is empty; the rest is ignored (R206). -/
def firstByte (payload : List Byte) : Option Byte := payload.head?

/-- The address length a byte asks for: 0 is clamped to `ALEN_MIN` (R200). -/
def clampLength (v : Byte) : Byte := if v = 0 then Config.alenMin else v

/-- What CMD8 sets: enabled iff the payload is non-empty and its first byte is 1 (R203). -/
def logRequest (payload : List Byte) : Bool := firstByte payload == some 1

/-- A bit as the byte 0x00 or 0x01 (R101). -/
def bitByte (b : Bool) : Byte := if b then 1 else 0

/-- The nine bytes of the status reply: tag, value, separator for the three registers in order (R101, R204). -/
def statusReply (s : State) : List Byte :=
  [s.build.tagAlen, s.cfgAlen, Config.statusSep,
   s.build.tagAfac, s.cfgAfac, Config.statusSep,
   s.build.tagLogen, bitByte s.cfgLogen, Config.statusSep]

end Sys2Proof.Machine
end

