-- ==== Sys2Proof/Machine/Ops.lean ====
section
/-! DEFINITION. The named operations over memory, registers, the tables and the outputs: the only code that reads or
writes the state's fields for a meaning. Among them raising an error and the return from a callback (spec/60_exceptions.md
R244, R249, R250), and fetching the host's next transaction (46_host_operations.md R220). -/

namespace Sys2Proof.Machine

/-! ## The receive buffer's bytes -/

/-- What an address that no cell lists reads as: `BUF_CLEAR_VALUE` (10_state.md R26, D12). -/
def unlisted : Byte := Config.bufClearValue

/-- The canonical form: addresses strictly rising, no cell equal to `unlisted`. -/
def Memory.wf : Memory → Bool
  | [] => true
  | (k, v) :: m => v != unlisted && m.all (fun c => decide (k < c.1)) && Memory.wf m

/-- The byte at an address. -/
def Memory.read : Memory → Nat → Byte
  | [], _ => unlisted
  | (k, v) :: m, a => if k = a then v else Memory.read m a

/-- Store one byte, keeping the canonical form. -/
def Memory.write : Memory → Nat → Byte → Memory
  | [], a, b => if b = unlisted then [] else [(a, b)]
  | (k, v) :: m, a, b =>
    if a < k then (if b = unlisted then (k, v) :: m else (a, b) :: (k, v) :: m)
    else if a = k then (if b = unlisted then m else (a, b) :: m)
    else (k, v) :: Memory.write m a b

/-- The `n` bytes from an address up. -/
def Memory.readN (m : Memory) (addr : Nat) : Nat → List Byte
  | 0 => []
  | n + 1 => Memory.read m addr :: Memory.readN m (addr + 1) n

/-- The bytes below a capacity kept, every byte at or above it `BUF_CLEAR_VALUE`: what the growth copy leaves
(41_receive_buffer.md R144). -/
def Memory.below (m : Memory) (cap : Nat) : Memory := m.filter fun c => decide (c.1 < cap)

/-! ## Sequencing -/

/-- Go on from a next state; a fault or a refusal ends the step (00_scope.md R10). -/
def andThen (x : Out) (f : State → Out) : Out :=
  match x with
  | .next s => f s
  | .fault r => .fault r
  | .refused r => .refused r

/-! ## Outputs -/

/-- `emit`: append an event to the output (00_scope.md R10). -/
def State.emit (s : State) (e : Event) : State := { s with events := s.events ++ [e] }

/-- Return a value to the caller of an operation run by itself (log 4). -/
def State.answer (s : State) (v : Value) : State := { s with ret := some v }

/-! ## The receive buffer controller (41_receive_buffer.md) -/

/-- `MemRead(addr, n)`: the list goes on to `k`; it requires `addr + n <= RX_CAP` (00_scope.md R10). -/
def memRead (addr n : Nat) (s : State) (k : List Byte → Out) : Out :=
  if addr + n ≤ s.rxCap then k (s.rxBuf.readN addr n) else .fault (.bufferRange s.events)

/-- `BUF.CLEAR`: both registers 0, every byte `BUF_CLEAR_VALUE`, the capacity kept (R140). -/
def State.clear (s : State) : State := { s with rxMsize := 0, rxBidx := 0, rxBuf := [] }

/-- `RX_MSIZE <- b` (40_receive_fsm.md R126). -/
def State.latch (s : State) (b : Byte) : State := { s with rxMsize := b }

/-- The new capacity, the old bytes copied, the new half cleared (R144). -/
def State.enlarge (s : State) : State :=
  { s with rxCap := Config.bufGrowFactor * s.rxCap, rxBuf := s.rxBuf.below s.rxCap }

/-- `RXBUF[RX_BIDX] <- b; RX_BIDX <- RX_BIDX + 1` (R143). -/
def State.store (s : State) (b : Byte) : State :=
  { s with rxBuf := s.rxBuf.write s.rxBidx b, rxBidx := s.rxBidx + 1 }

/-- `BUF.GROW` (R144, R145). -/
def bufGrow (s : State) : Out :=
  if capAllowed s.build (Config.bufGrowFactor * s.rxCap) then .next s.enlarge
  else .fault (.bufferExhausted s.events)

/-- `MemWrite(RX_BIDX, 1, [b])` and the increment; it requires `RX_BIDX + 1 <= RX_CAP` (R10, R143). -/
def storeNext (b : Byte) (s : State) : Out :=
  if s.rxBidx + 1 ≤ s.rxCap then .next (s.store b) else .fault (.bufferRange s.events)

/-- `BUF.APPEND(b)`: grow first if full, then store and count (R143). -/
def bufAppend (b : Byte) (s : State) : Out :=
  andThen (if s.bufFull then bufGrow s else .next s) (storeNext b)

/-! ## The codec (42_address_codec.md) -/

/-- The byte of digit `d` at place `k`: the digit where a byte holds it, else a free value (R156, log 25). -/
def digitByte (a w f k d : Nat) : Byte :=
  if d < 256 then BitVec.ofNat 8 d else Config.wideDigit (a % f ^ w) w f k

/-- The bytes of the digits, the most significant first (R156). -/
def digitField (a w f : Nat) : List Nat → List Byte
  | [] => []
  | d :: rest => digitByte a w f rest.length d :: digitField a w f rest

/-- What `ENCODE(a, w, f)` returns for `f >= 1` (R156). -/
def encodeField (a w f : Nat) : List Byte := digitField a w f (encodeDigits a w f)

/-- `ENCODE(a, w, f)`: the bytes go on to `k`; radix 0 faults (R156, R161). -/
def withEncoded (a w f : Nat) (s : State) (k : List Byte → Out) : Out :=
  if f = 0 then .fault (.encodeRadixZero s.events)
  else k (encodeField a w f)

/-- `DECODE(bytes, w, f)`: the address goes on to `k`; one that does not fit `ADDR_W` faults (R158, R164). -/
def withDecoded (bytes : List Byte) (w f : Nat) (s : State) (k : Nat → Out) : Out :=
  if bytes.length < w then .refused .shortField
  else if addrFits s.build (decodeAddress bytes w f) then k (decodeAddress bytes w f)
  else .fault (.addressOverflow s.events)

/-! ## The frame writer (43_frame_writer.md) -/

/-- `WRITE(address, payload)`: the length check, the encoding, one `Tx` event (R171, R172). -/
def writeFrame (address : Nat) (payload : List Byte) (s : State) : Out :=
  if 255 < s.cfgAlen.toNat + payload.length then .fault (.txLengthOverflow s.events)
  else withEncoded address s.cfgAlen.toNat s.cfgAfac.toNat s fun addr =>
    .next (s.emit (.tx ([Config.startByte, BitVec.ofNat 8 (s.cfgAlen.toNat + payload.length)] ++ addr ++ payload ++
      [Config.stopByte])))

/-! ## Calls into the host -/

/-- A handler or callback returns: nothing is restored (60_exceptions.md R250). -/
def hostReturns (s : State) : Out := .next s

/-- The calls a handler or callback makes while it runs: `WRITE` is performed at once, its `Tx` after everything emitted
before (70_reset_and_hazards.md R284); any other transaction is refused (R257, R282, R283). -/
def runHostCalls : List HostTx → State → Out
  | [], s => hostReturns s
  | .write address payload :: rest, s => andThen (writeFrame address payload s) (runHostCalls rest)
  | .feed b :: _, _ => .refused (.insideHandler (.feed b))
  | .register a :: _, _ => .refused (.insideHandler (.register a))
  | .setGeneric on :: _, _ => .refused (.insideHandler (.setGeneric on))
  | .setErrcb :: _, _ => .refused (.insideHandler .setErrcb)
  | .reset :: _, _ => .refused (.insideHandler .reset)

/-- A synchronous call of a handler or callback (44_dispatcher.md R188): the next entry of `hostCalls` says what it
does, nothing where there is none (log 3). -/
def callHost (s : State) : Out :=
  match s.hostCalls with
  | [] => hostReturns s
  | calls :: later => runHostCalls calls { s with hostCalls := later }

/-- `RAISE(code, fields)`: one `Error` event with `logged` and `delivered`, and the callback if one is registered; no
state changes and the step goes on (60_exceptions.md R244, R246). -/
def raiseError (e : ErrorRec) (s : State) : Out :=
  if s.errcbSet then callHost (s.emit (.error e s.cfgLogen s.errcbSet))
  else .next (s.emit (.error e s.cfgLogen s.errcbSet))

/-! ## Configuration and tables -/

/-- `CFG_ALEN <- v`. -/
def State.setAlen (s : State) (v : Byte) : State := { s with cfgAlen := v }

/-- `CFG_AFAC <- v`. -/
def State.setAfac (s : State) (v : Byte) : State := { s with cfgAfac := v }

/-- `CFG_LOGEN <- b`. -/
def State.setLogen (s : State) (b : Bool) : State := { s with cfgLogen := b }

/-- `GEN_SET <- on` (46_host_operations.md R222). -/
def State.setGen (s : State) (on : Bool) : State := { s with genSet := on }

/-- `ERRCB_SET <- 1` (R223). -/
def State.setErr (s : State) : State := { s with errcbSet := true }

/-- An address into the rising list of occupied slots. -/
def insertSlot (a : Nat) : List Nat → List Nat
  | [] => [a]
  | k :: t => if a < k then a :: k :: t else if a = k then k :: t else k :: insertSlot a t

/-- Growing the user table to `a + 5` slots: the slots that exist keep their values, the new ones are empty
(44_dispatcher.md R190). -/
def State.growTable (s : State) (a : Nat) : State :=
  { s with tblCap := a + Config.tblGrowMargin, tbl := s.tbl.filter fun k => decide (k < s.tblCap) }

/-- `TBL[a] <- 1`. -/
def State.occupy (s : State) (a : Nat) : State := { s with tbl := insertSlot a s.tbl }

/-- `REGISTER(a)` (R190). -/
def State.registerSlot (s : State) (a : Nat) : State :=
  if s.tblCap ≤ a then (s.growTable a).occupy a else s.occupy a

/-- `RESET`: every piece of the spec's state to its value after reset (70_reset_and_hazards.md R270). What is not the
block's state stays: its build parameters, the host's plans, the events already emitted, the last returned value (log 10). -/
def State.resetAll (s : State) : State :=
  { State.resetWith s.build with hostIn := s.hostIn, hostCalls := s.hostCalls, events := s.events, ret := s.ret }

/-! ## The host's next transaction -/

/-- The oldest pending transaction, as the operation it performs, and the state without it (R220, R221). -/
def fetch (s : State) : Option (Instr × State) :=
  match s.hostIn with
  | [] => none
  | t :: later => some (decodeTx t, { s with hostIn := later })

/-- No transaction is pending: "no step happens and the state does not change" (R221). -/
def idle (s : State) : Out := .next s

/-- A received byte placed as the host's next transaction. -/
def placeFeed (b : Byte) (s : State) : State := { s with hostIn := .feed b :: s.hostIn }

end Sys2Proof.Machine
end

