-- ==== Sys2Proof/Machine/Codec.lean ====
section
/-! DEFINITION. ENCODE and DECODE run by themselves (spec/42_address_codec.md): pure functions, whose value is returned. -/

namespace Sys2Proof.Machine

/-- `ENCODE(a, w, f)` (R156, R157, R161). -/
def execEncode (a w f : Nat) (s : State) : Out :=
  withEncoded a w f s fun bs => .next (s.answer (.bytes bs))

/-- `DECODE(bytes, w, f)` (R158, R164). -/
def execDecode (bytes : List Byte) (w f : Nat) (s : State) : Out :=
  withDecoded bytes w f s fun a => .next (s.answer (.nat a))

end Sys2Proof.Machine
end

