-- ==== Sys2Proof/Machine/HostOps.lean ====
section
/-! DEFINITION. SETGENERIC, SETERRCB and RESET (spec/46_host_operations.md, 70_reset_and_hazards.md). -/

namespace Sys2Proof.Machine

/-- `SETGENERIC(on)` or `SETGENERIC(off)` (R222). -/
def execSetGeneric (on : Bool) (s : State) : Out := .next (s.setGen on)

/-- `SETERRCB` (R223). -/
def execSetErrcb (s : State) : Out := .next s.setErr

/-- `RESET` (R270). -/
def execReset (s : State) : Out := .next s.resetAll

end Sys2Proof.Machine
end

