-- ==== Sys2Proof/Machine/Buffer.lean ====
section
/-! DEFINITION. The receive buffer's micro-operations (spec/41_receive_buffer.md). -/

namespace Sys2Proof.Machine

/-- `BUF.CLEAR` (R140). -/
def execBufClear (s : State) : Out := .next s.clear

/-- `BUF.APPEND(b)` (R143). -/
def execBufAppend (b : Byte) (s : State) : Out := bufAppend b s

/-- `BUF.GROW` (R144, R145). -/
def execBufGrow (s : State) : Out := bufGrow s

/-- `BUF.SNAPSHOT`: the list `RXBUF[0 .. RX_MSIZE)` is returned; nothing else changes (R147). -/
def execBufSnapshot (s : State) : Out :=
  memRead 0 s.rxMsize.toNat s fun frame => .next (s.answer (.bytes frame))

end Sys2Proof.Machine
end

