-- ==== Sys2Proof/Machine/Writer.lean ====
section
/-! DEFINITION. WRITE (spec/43_frame_writer.md). -/

namespace Sys2Proof.Machine

/-- `WRITE(address, payload)` (R171, R172). -/
def execWrite (address : Nat) (payload : List Byte) (s : State) : Out := writeFrame address payload s

end Sys2Proof.Machine
end

