-- ==== Sys2Proof/Machine/Builtin.lean ====
section
/-! DEFINITION. The ten built-in commands (spec/45_builtin_commands.md); each takes the operands every handler gets. -/

namespace Sys2Proof.Machine

/-- The reserved commands' shared effect: none (R202). -/
def reservedNoOp (s : State) : Out := .next s

/-- `CMD0`, set-address-length: 0 clamped to 1, an empty payload changes nothing (R200). -/
def execCmd0 (_address : Nat) (payload : List Byte) (s : State) : Out :=
  match firstByte payload with
  | none => .next s
  | some v => .next (s.setAlen (clampLength v))

/-- `CMD1`, set-address-factor: no clamp, an empty payload changes nothing (R201). -/
def execCmd1 (_address : Nat) (payload : List Byte) (s : State) : Out :=
  match firstByte payload with
  | none => .next s
  | some v => .next (s.setAfac v)

/-- `CMD2`, reserved (R202). -/
def execCmd2 (_address : Nat) (_payload : List Byte) (s : State) : Out := reservedNoOp s

/-- `CMD3`, reserved (R202). -/
def execCmd3 (_address : Nat) (_payload : List Byte) (s : State) : Out := reservedNoOp s

/-- `CMD4`, reserved (R202). -/
def execCmd4 (_address : Nat) (_payload : List Byte) (s : State) : Out := reservedNoOp s

/-- `CMD5`, reserved (R202). -/
def execCmd5 (_address : Nat) (_payload : List Byte) (s : State) : Out := reservedNoOp s

/-- `CMD6`, reserved (R202). -/
def execCmd6 (_address : Nat) (_payload : List Byte) (s : State) : Out := reservedNoOp s

/-- `CMD7`, reserved (R202). -/
def execCmd7 (_address : Nat) (_payload : List Byte) (s : State) : Out := reservedNoOp s

/-- `CMD8`, set-log-enabled: an empty payload disables (R203). -/
def execCmd8 (_address : Nat) (payload : List Byte) (s : State) : Out := .next (s.setLogen (logRequest payload))

/-- `CMD9`, get-status: the reply goes through WRITE to the address the request came to (R204). -/
def execCmd9 (address : Nat) (_payload : List Byte) (s : State) : Out := execWrite address (statusReply s) s

end Sys2Proof.Machine
end

