-- ==== Sys2Proof/Machine/Errors.lean ====
section
/-! DEFINITION. RAISE (spec/60_exceptions.md). -/

namespace Sys2Proof.Machine

/-- `RAISE(code, fields)` (R244). -/
def execRaise (e : ErrorRec) (s : State) : Out := raiseError e s

end Sys2Proof.Machine
end

