-- ==== Sys2Proof/Machine/Dispatcher.lean ====
section
/-! DEFINITION. DISPATCH and REGISTER (spec/44_dispatcher.md). -/

namespace Sys2Proof.Machine

/-- Step 5: run `CMD<address>` (R180). Addresses of 10 and above have no slot and are never passed here. -/
def runBuiltin (address : Nat) (payload : List Byte) (s : State) : Out :=
  match address with
  | 0 => execCmd0 address payload s
  | 1 => execCmd1 address payload s
  | 2 => execCmd2 address payload s
  | 3 => execCmd3 address payload s
  | 4 => execCmd4 address payload s
  | 5 => execCmd5 address payload s
  | 6 => execCmd6 address payload s
  | 7 => execCmd7 address payload s
  | 8 => execCmd8 address payload s
  | 9 => execCmd9 address payload s
  | _ + 10 => .next s

/-- Step 3: the generic handler, if set, is invoked with every dispatched frame (R184, R185). -/
def invokeGeneric (address : Nat) (payload : List Byte) (s : State) : Out :=
  if s.genSet then callHost (s.emit (.invoke .generic address payload)) else .next s

/-- Steps 4 to 6: the user handler, else the built-in, else nothing (R184, R186, R187). -/
def route (address : Nat) (payload : List Byte) (s : State) : Out :=
  if s.userSlot address then callHost (s.emit (.invoke .user address payload))
  else if s.builtinSlot address then runBuiltin address payload (s.emit (.invoke .builtin address payload))
  else .next s

/-- Steps 3 to 6 in order (R184). -/
def resolve (address : Nat) (payload : List Byte) (s : State) : Out :=
  andThen (invokeGeneric address payload s) (route address payload)

/-- `DISPATCH(frame)`: a runt is reported and dropped (R183); any other frame is decoded, stripped and routed (R180). -/
def execDispatch (frame : List Byte) (s : State) : Out :=
  if frame.length < s.cfgAlen.toNat then
    execRaise (.runtFrame frame.length s.cfgAlen.toNat frame) s
  else
    withDecoded (addressField s.cfgAlen.toNat frame) s.cfgAlen.toNat s.cfgAfac.toNat s fun address =>
      resolve address (payloadField s.cfgAlen.toNat frame) s

/-- `REGISTER(a)` (R190). -/
def execRegister (a : Nat) (s : State) : Out := .next (s.registerSlot a)

end Sys2Proof.Machine
end

