-- ==== Sys2Proof/Machine/Receive.lean ====
section
/-! DEFINITION. FEED and the four receive operations (spec/40_receive_fsm.md). -/

namespace Sys2Proof.Machine

/-- `RX.START`: the partial frame is discarded, nothing is reported (R122). -/
def execRxStart (s : State) : Out := execBufClear s

/-- `RX.STOP`: where the count equals the declared length the frame is taken, the assembler cleared and the frame
dispatched; otherwise the sizes and bytes are taken, the assembler cleared and `E1` raised (R124, R249). -/
def execRxStop (s : State) : Out :=
  if s.complete then
    memRead 0 s.rxMsize.toNat s fun frame => execDispatch frame (s.clear.emit (.frame frame))
  else
    memRead 0 s.rxBidx s fun data => execRaise (.sizeMismatch s.rxMsize.toNat s.rxBidx data) s.clear

/-- `RX.LEN(b)` (R126, R127). -/
def execRxLen (b : Byte) (s : State) : Out := .next (s.latch b)

/-- `RX.DATA(b)`: the append is unconditional (R128, R129). -/
def execRxData (b : Byte) (s : State) : Out := execBufAppend b s

/-- `FEED(b)`: the operation that the byte and `RX_MSIZE == 0` select (R120, R94). -/
def execFeed (b : Byte) (s : State) : Out :=
  if b = Config.startByte then execRxStart s
  else if b = Config.stopByte then execRxStop s
  else if s.lenKnown then execRxData b s
  else execRxLen b s

end Sys2Proof.Machine
end

