-- ==== Sys2Proof/Machine/Dispatch.lean ====
section
/-! DEFINITION. One arm per operation: each calls its own meaning. -/

namespace Sys2Proof.Machine

def exec (i : Instr) (s : State) : Host.Outcome State Fault Refusal :=
  match i with
  | .feed b => Sys2Proof.Machine.execFeed b s
  | .rxStart => Sys2Proof.Machine.execRxStart s
  | .rxStop => Sys2Proof.Machine.execRxStop s
  | .rxLen b => Sys2Proof.Machine.execRxLen b s
  | .rxData b => Sys2Proof.Machine.execRxData b s
  | .bufClear => Sys2Proof.Machine.execBufClear s
  | .bufAppend b => Sys2Proof.Machine.execBufAppend b s
  | .bufGrow => Sys2Proof.Machine.execBufGrow s
  | .bufSnapshot => Sys2Proof.Machine.execBufSnapshot s
  | .encode a w f => Sys2Proof.Machine.execEncode a w f s
  | .decode bytes w f => Sys2Proof.Machine.execDecode bytes w f s
  | .write address payload => Sys2Proof.Machine.execWrite address payload s
  | .dispatch frame => Sys2Proof.Machine.execDispatch frame s
  | .register a => Sys2Proof.Machine.execRegister a s
  | .cmd0 address payload => Sys2Proof.Machine.execCmd0 address payload s
  | .cmd1 address payload => Sys2Proof.Machine.execCmd1 address payload s
  | .cmd2 address payload => Sys2Proof.Machine.execCmd2 address payload s
  | .cmd3 address payload => Sys2Proof.Machine.execCmd3 address payload s
  | .cmd4 address payload => Sys2Proof.Machine.execCmd4 address payload s
  | .cmd5 address payload => Sys2Proof.Machine.execCmd5 address payload s
  | .cmd6 address payload => Sys2Proof.Machine.execCmd6 address payload s
  | .cmd7 address payload => Sys2Proof.Machine.execCmd7 address payload s
  | .cmd8 address payload => Sys2Proof.Machine.execCmd8 address payload s
  | .cmd9 address payload => Sys2Proof.Machine.execCmd9 address payload s
  | .setGeneric on => Sys2Proof.Machine.execSetGeneric on s
  | .setErrcb => Sys2Proof.Machine.execSetErrcb s
  | .reset => Sys2Proof.Machine.execReset s
  | .raise e => Sys2Proof.Machine.execRaise e s

end Sys2Proof.Machine
end

