-- ==== Sys2Proof/Machine/Step.lean ====
section
/-! DEFINITION. One step: the host's next transaction, performed whole (spec/00_scope.md R11, 46_host_operations.md R220). -/

namespace Sys2Proof.Machine

/-- One step: the oldest pending transaction's operation; with none pending the state does not change (R221). -/
def step (s : State) : Host.Outcome State Fault Refusal :=
  match fetch s with
  | none => idle s
  | some (i, s') => exec i s'

/-- `s` with the byte `w` (its low `nbits` bits) as the host's next transaction, the place a step takes its next
operation from (log 8). -/
def State.withFetchWord (s : State) (nbits w : Nat) : State := placeFeed (BitVec.ofNat 8 (w % 2 ^ nbits)) s

end Sys2Proof.Machine
end

