-- ==== Sys2Proof/Safety.lean ====
section
/-! DEFINITION. The terms the claims are stated in: the invariant of reachable states, what a step leaves unchanged, which
runs end without a host call from inside a handler, and which states the outside cannot tell apart. -/

namespace Sys2Proof.Machine

/-- What holds at reset and every step keeps; each field cites the rule that states it. -/
structure Inv (s : State) : Prop where
  /-- The memory keeps its canonical form (log 11). -/
  memory : Memory.wf s.rxBuf = true
  /-- Bytes at or above `RX_BIDX` hold `BUF_CLEAR_VALUE` (10_state.md R26). -/
  stored : ∀ c ∈ s.rxBuf, c.1 < s.rxBidx
  /-- No byte of `RXBUF` equals a sentinel (R26). -/
  bytes : ∀ a, Config.isSentinel (s.rxBuf.read a) = false
  /-- `RX_MSIZE` is never a sentinel (R22, 40_receive_fsm.md R121). -/
  length : Config.isSentinel s.rxMsize = false
  /-- `RX_MSIZE == 0` implies `RX_BIDX == 0` (R23). -/
  cursor : s.rxMsize = 0 → s.rxBidx = 0
  /-- `RX_BIDX <= RX_CAP` (R25). -/
  room : s.rxBidx ≤ s.rxCap
  /-- `RX_CAP` is `BUF_CAP_INIT * BUF_GROW_FACTOR^k` (R25). -/
  doubling : ∃ k, s.rxCap = Config.bufCapInit * Config.bufGrowFactor ^ k
  /-- `RX_CAP <= BUF_CAP_MAX` where it is a number (R25). -/
  allowed : capAllowed s.build s.rxCap = true
  /-- `CFG_ALEN` is 1 to 253 (R27). -/
  alen : s.cfgAlen ≠ 0 ∧ Config.isSentinel s.cfgAlen = false
  /-- `CFG_AFAC` is 0 to 253 (R28). -/
  afac : Config.isSentinel s.cfgAfac = false
  /-- The occupied slots are listed once each, in rising order (log 9). -/
  slots : s.tbl.Pairwise (· < ·)
  /-- An occupied slot exists (R35). -/
  table : ∀ a ∈ s.tbl, a < s.tblCap
  /-- All ten built-in slots are non-empty (R37). -/
  builtins : ∀ a, a < Config.builtinCount → s.builtinSlot a = true
  /-- The build parameters are legal (00_scope.md R8). -/
  params : s.build.ok = true

/-- The configuration registers are unchanged. -/
def SameConfig (s t : State) : Prop := t.cfgAlen = s.cfgAlen ∧ t.cfgAfac = s.cfgAfac ∧ t.cfgLogen = s.cfgLogen

/-- The handler and table state is unchanged. -/
def SameTables (s t : State) : Prop :=
  t.genSet = s.genSet ∧ t.errcbSet = s.errcbSet ∧ t.tblCap = s.tblCap ∧ t.tbl = s.tbl ∧ t.bi = s.bi

/-- Every byte of the receive buffer is unchanged. -/
def SameBytes (s t : State) : Prop := ∀ a, t.rxBuf.read a = s.rxBuf.read a

/-- The receive registers and every byte of the buffer are unchanged. -/
def SameReceive (s t : State) : Prop :=
  t.rxMsize = s.rxMsize ∧ t.rxBidx = s.rxBidx ∧ t.rxCap = s.rxCap ∧ SameBytes s t

/-- The build parameters and the host's plans are unchanged. -/
def SameHost (s t : State) : Prop := t.build = s.build ∧ t.hostIn = s.hostIn ∧ t.hostCalls = s.hostCalls

/-- No event was emitted and no value returned. -/
def SameOutputs (s t : State) : Prop := t.events = s.events ∧ t.ret = s.ret

/-- The assembler is cleared: both registers 0, every byte `BUF_CLEAR_VALUE` (41_receive_buffer.md R140). -/
def Cleared (t : State) : Prop :=
  t.rxMsize = 0 ∧ t.rxBidx = 0 ∧ ∀ a, t.rxBuf.read a = Config.bufClearValue

/-- The reset values of the table of 10_state.md R45. -/
def AtReset (t : State) : Prop :=
  Cleared t ∧ t.rxCap = 32 ∧ t.cfgAlen = 1 ∧ t.cfgAfac = 200 ∧ t.cfgLogen = false ∧ t.genSet = false ∧
    t.errcbSet = false ∧ (∀ a, t.userSlot a = false) ∧ t.tblCap = t.build.tblCapInit ∧
    ∀ a, a < 10 → t.builtinSlot a = true

/-- The handlers and the callback make no call into the block. -/
def Quiet (s : State) : Prop := s.hostCalls = []

/-- The plan of a handler or callback that writes these frames, (address, payload) each, and makes no other call. -/
def planOf (writes : List (Nat × List Byte)) : List HostTx := writes.map fun w => .write w.1 w.2

/-- Every one of these writes goes through: within the `LEN` bound, the radix not 0 (43_frame_writer.md R171, R172). -/
def InBounds (s : State) (writes : List (Nat × List Byte)) : Prop :=
  ∀ w ∈ writes, s.cfgAlen.toNat + w.2.length ≤ 255 ∧ s.cfgAfac ≠ 0

/-- The `Tx` events of these writes, in their order. -/
def writeEvents (s : State) (writes : List (Nat × List Byte)) : List Event :=
  writes.map fun w => .tx (encodeWire s.cfgAlen.toNat s.cfgAfac.toNat w.1 w.2)

/-- The plans of the handlers that ran are used up, those in `later` are left, and the rest of the host's side is
unchanged. -/
def PlansLeft (s t : State) (later : List (List HostTx)) : Prop :=
  t.build = s.build ∧ t.hostIn = s.hostIn ∧ t.hostCalls = later

/-- The body bytes `RXBUF[0 .. n)`. -/
def bodyBytes (s : State) (n : Nat) : List Byte := s.rxBuf.readN 0 n

/-- `BUF_CAP_MAX` leaves room for every frame that can be received intact (41_receive_buffer.md R145). -/
def RoomForFrames (p : BuildParams) : Prop := capAllowed p 256 = true

/-- The events of steps 3 and 4 for an address that no built-in serves: the generic handler if set, then the user
handler if its slot is occupied (44_dispatcher.md R184). -/
def handlerEvents (s : State) (a : Nat) (p : List Byte) : List Event :=
  (if s.genSet then [.invoke .generic a p] else []) ++ (if s.userSlot a then [.invoke .user a p] else [])

/-- An event that reports an error. -/
def Event.isError : Event → Bool
  | .error _ _ _ => true
  | .frame _ => false
  | .invoke _ _ _ => false
  | .tx _ => false

/-- An event that a completed frame left the assembler. -/
def Event.isFrame : Event → Bool
  | .frame _ => true
  | .error _ _ _ => false
  | .invoke _ _ _ => false
  | .tx _ => false

/-- Two states that differ in the hidden capacities only (10_state.md R44). -/
def DifferInCapacity (s t : State) : Prop := t = { s with rxCap := t.rxCap, tblCap := t.tblCap }

/-- Two outcomes no output tells apart: next states that differ in the hidden capacities only, or the same stop. -/
def SameOutcome : Out → Out → Prop
  | .next s, .next t => DifferInCapacity s t
  | .fault r, .fault r' => r = r'
  | .refused r, .refused r' => r = r'
  | _, _ => False

end Sys2Proof.Machine
end

