-- ==== Sys2Proof/Certificates/Slice0/Obligations.lean ====
section
/-! DEFINITION. The statements for the provers: what the numbered rules of spec/ say the block does. -/

open Sys2Proof Sys2Proof.Machine

/-! ## Reset and the invariant -/

/-- `State.reset` holds the values of the table of 10_state.md R45. `CFG_ALEN` = 1 is inferred by the spec (D5),
`CFG_LOGEN` = 0 and the buffer's 0x00 are the spec's decisions (D6, D12), `TBL_CAP_INIT` = 0 is this model's (log 5). -/
def Obligations.ResetStateHasTableValues : Prop :=
  AtReset State.reset ∧ State.reset.build = BuildParams.default ∧ State.reset.hostIn = [] ∧
    State.reset.hostCalls = [] ∧ State.reset.events = [] ∧ State.reset.ret = none

/-- `RESET` (70_reset_and_hazards.md R270): from every state, every piece of the spec's state to its reset value, no
event. That the host's plans and the record of events stay is this model's choice (log 10). -/
def Obligations.ResetRestoresEveryRegister : Prop :=
  ∀ s : State, ∃ t, exec .reset s = .next t ∧ AtReset t ∧ SameHost s t ∧ SameOutputs s t

/-- The invariant holds at reset. -/
def Obligations.InvariantHoldsAtReset : Prop := Inv State.reset

/-- The invariant (10_state.md R22, R23, R25, R26, R27, R35, R37) is kept by every step, from every state that meets it. -/
def Obligations.EveryStepKeepsInvariant : Prop :=
  ∀ s t : State, Inv s → step s = .next t → Inv t

/-! ## The step and decoding -/

/-- A step performs the oldest pending transaction's operation, which is well formed; with none pending nothing changes
(46_host_operations.md R220, R221). The queue is this model's form of the host (log 1). -/
def Obligations.StepPerformsNextTransaction : Prop :=
  (∀ s : State, s.hostIn = [] → step s = .next s) ∧
  ∀ (s : State) (tx : HostTx) (later : List HostTx), s.hostIn = tx :: later →
    (decodeTx tx).wf = true ∧ step s = exec (decodeTx tx) { s with hostIn := later }

/-- The primary opcode map (30_encoding.md R94): the byte and `RX_MSIZE` select one of the four receive operations. -/
def Obligations.FeedSelectsOneReceiveOperation : Prop :=
  ∀ (b : Byte) (s : State),
    (b = 254 → exec (.feed b) s = exec .rxStart s) ∧
    (b = 255 → exec (.feed b) s = exec .rxStop s) ∧
    (b ≠ 254 → b ≠ 255 → s.rxMsize = 0 → exec (.feed b) s = exec (.rxLen b) s) ∧
    (b ≠ 254 → b ≠ 255 → s.rxMsize ≠ 0 → exec (.feed b) s = exec (.rxData b) s) ∧
    exec (.feed b) s = exec (decodeByte s.lenKnown b) s

/-- Words written out from the spec's encodings: 0xFE and 0xFF of the table, a length and a body byte (R94), and the
frames of the examples of 45_builtin_commands.md R200 to R204. -/
def Obligations.WrittenOutWordsDecode : Prop :=
  decodeTableWord 8 0b11111110 = some .rxStart ∧ decodeTableWord 8 0b11111111 = some .rxStop ∧
  decodeByte false 2 = .rxLen 2 ∧ decodeByte true 5 = .rxData 5 ∧
  decodeWireCommand 1 200 [254, 2, 0, 3, 255] = .ok (.cmd0 0 [3]) ∧
  decodeWireCommand 1 200 [254, 2, 1, 10, 255] = .ok (.cmd1 1 [10]) ∧
  decodeWireCommand 1 200 [254, 2, 5, 0x41, 255] = .ok (.cmd5 5 [0x41]) ∧
  decodeWireCommand 1 200 [254, 2, 8, 1, 255] = .ok (.cmd8 8 [1]) ∧
  decodeWireCommand 3 200 [254, 3, 0, 0, 9, 255] = .ok (.cmd9 9 [])

/-- Every well-formed operation's call form decodes to it, and what decodes is well formed and has that call form: the
table's rows are told apart with every operand kept. -/
def Obligations.CallFormsRoundTrip : Prop :=
  (∀ i : Instr, i.wf = true → decodeCall (encodeCall i) = .ok i) ∧
  ∀ (c : Call) (i : Instr), decodeCall c = .ok i → i.wf = true ∧ encodeCall i = c

/-- Every received byte decodes, known length or not, to a well-formed receive operation whose encoding is that byte
(30_encoding.md R94, R95), and every well-formed receive operation is decoded from its byte. -/
def Obligations.ReceivedBytesRoundTrip : Prop :=
  (∀ (w f : Nat) (known : Bool) (b : Byte),
    (decodeByte known b).wf = true ∧ encode w f (decodeByte known b) = [b]) ∧
  ∀ (w f : Nat) (i : Instr), i.wf = true →
    ((i = .rxStart ∨ i = .rxStop ∨ ∃ b, i = .rxLen b) → (encode w f i).map (decodeByte false) = [i]) ∧
    ((i = .rxStart ∨ i = .rxStop ∨ ∃ b, i = .rxData b) → (encode w f i).map (decodeByte true) = [i])

/-- A frame of the wire that a receiver can take intact (30_encoding.md R90 to R92, R97) decodes to the address and
payload it was made from, for every address the field can hold. -/
def Obligations.WireFramesRoundTrip : Prop :=
  ∀ (w f a : Nat) (p : List Byte), 1 ≤ w → 2 ≤ f → f ≤ 254 → a < f ^ w → sentinelFree p = true →
    w + p.length ≤ 253 → decodeWire w f (encodeWire w f a p) = .ok (a, p)

/-- A built-in command's frame decodes to that command, and its address field is zeros and the address
(45_builtin_commands.md R207). -/
def Obligations.BuiltinFramesDecodeToTheirCommand : Prop :=
  ∀ (w f a : Nat) (p : List Byte) (i : Instr), 1 ≤ w → 10 ≤ f → f ≤ 254 → sentinelFree p = true →
    w + p.length ≤ 253 → decodeCommand a p = .ok i →
    decodeWireCommand w f (encode w f i) = .ok i ∧ i.wf = true ∧
      encodeDigits a w f = List.replicate (w - 1) 0 ++ [a]

/-! ## The receive state machine (40_receive_fsm.md) -/

/-- `RX.START` (R122), in every state: it is `BUF.CLEAR`, so both registers become 0 and the buffer is cleared as
`BUF.CLEAR` clears it; the capacity, the configuration and the tables are not touched, no event, no error; a second
START changes nothing. -/
def Obligations.RxStartDiscardsPartialFrame : Prop :=
  ∀ s : State, exec .rxStart s = exec .bufClear s ∧ ∃ t, exec .rxStart s = .next t ∧ t.rxMsize = 0 ∧ t.rxBidx = 0 ∧
    t.rxCap = s.rxCap ∧ SameConfig s t ∧ SameTables s t ∧ SameHost s t ∧ SameOutputs s t ∧ exec .rxStart t = .next t

/-- `RX.LEN(b)` (R126, 30_encoding.md R98): `RX_MSIZE <- b`, whatever the byte; nothing else changes. -/
def Obligations.RxLenLatchesTheByte : Prop :=
  ∀ (b : Byte) (s : State), ∃ t, exec (.rxLen b) s = .next t ∧ t.rxMsize = b ∧ t.rxBidx = s.rxBidx ∧
    t.rxCap = s.rxCap ∧ SameBytes s t ∧ SameConfig s t ∧ SameTables s t ∧ SameHost s t ∧ SameOutputs s t

/-- A length byte of 0 leaves the state exactly as it was (R127; the spec's decision D7). -/
def Obligations.ZeroLengthByteRelatches : Prop :=
  ∀ s : State, s.rxMsize = 0 → exec (.feed 0) s = .next s

/-- `FEED` of START, of a length byte and of a body byte with room completes (R120, R122, R126, R128). -/
def Obligations.FeedOfAByteCompletes : Prop :=
  ∀ (b : Byte) (s : State), Memory.wf s.rxBuf = true →
    (b = Config.startByte → ∃ t, exec (.feed b) s = .next t ∧ Cleared t ∧ t.events = s.events) ∧
    (Config.isSentinel b = false → s.rxMsize = 0 → ∃ t, exec (.feed b) s = .next t ∧ t.rxMsize = b ∧
      t.rxBidx = s.rxBidx ∧ SameBytes s t ∧ t.events = s.events) ∧
    (Config.isSentinel b = false → s.rxMsize ≠ 0 → s.rxBidx < s.rxCap → ∃ t, exec (.feed b) s = .next t ∧
      t.rxMsize = s.rxMsize ∧ t.rxBidx = s.rxBidx + 1 ∧ t.rxBuf.read s.rxBidx = b ∧
      (∀ a, a ≠ s.rxBidx → t.rxBuf.read a = s.rxBuf.read a) ∧ t.events = s.events)

/-- `RX.DATA(b)` and `BUF.APPEND(b)` (R128, 41_receive_buffer.md R143): the byte goes to index `RX_BIDX`, which counts up;
a full buffer grows first, to twice its capacity, and keeps every byte; growth past a finite `BUF_CAP_MAX` is the fault
`BufferExhausted`. The declared length is neither read nor changed. What the new half of a grown buffer holds is
`BUF.GROW`'s statement. -/
def Obligations.AppendStoresAtTheCursor : Prop :=
  ∀ (i : Instr) (b : Byte) (s : State), (i = .rxData b ∨ i = .bufAppend b) → Memory.wf s.rxBuf = true →
    (s.rxBidx < s.rxCap → ∃ t, exec i s = .next t ∧ t.rxBuf.read s.rxBidx = b ∧
      (∀ a, a ≠ s.rxBidx → t.rxBuf.read a = s.rxBuf.read a) ∧ t.rxBidx = s.rxBidx + 1 ∧ t.rxCap = s.rxCap ∧
      t.rxMsize = s.rxMsize ∧ SameConfig s t ∧ SameTables s t ∧ SameHost s t ∧ SameOutputs s t) ∧
    (s.rxBidx = s.rxCap → 0 < s.rxCap → capAllowed s.build (2 * s.rxCap) = true → ∃ t, exec i s = .next t ∧
      t.rxBuf.read s.rxBidx = b ∧ (∀ a, a < s.rxBidx → t.rxBuf.read a = s.rxBuf.read a) ∧ t.rxBidx = s.rxBidx + 1 ∧
      t.rxCap = 2 * s.rxCap ∧ t.rxMsize = s.rxMsize ∧ SameConfig s t ∧ SameTables s t ∧ SameHost s t ∧
      SameOutputs s t) ∧
    (s.rxBidx = s.rxCap → capAllowed s.build (2 * s.rxCap) = false →
      exec i s = .fault (.bufferExhausted s.events))

/-- `RX.STOP` with `RX_BIDX == RX_MSIZE` (R124): the frame is taken, the assembler cleared, `Frame` emitted, and the frame
dispatched. -/
def Obligations.RxStopDispatchesTheFrame : Prop :=
  ∀ s : State, s.rxBidx = s.rxMsize.toNat → s.rxBidx ≤ s.rxCap → ∃ u,
    exec .rxStop s = exec (.dispatch (bodyBytes s s.rxBidx)) u ∧ Cleared u ∧ u.rxCap = s.rxCap ∧
    u.events = s.events ++ [.frame (bodyBytes s s.rxBidx)] ∧ u.ret = s.ret ∧ SameConfig s u ∧ SameTables s u ∧
    SameHost s u

/-- `RX.STOP`, and so `FEED(255)`, with a completed frame whose address no built-in serves (R124, 44_dispatcher.md R184,
R187): the frame's events in order, the assembler cleared, nothing else changed. -/
def Obligations.CompletedFrameReachesItsHandlers : Prop :=
  ∀ (i : Instr) (s : State) (a : Nat), (i = .rxStop ∨ i = .feed Config.stopByte) →
    s.rxBidx = s.rxMsize.toNat → s.rxBidx ≤ s.rxCap → s.cfgAlen.toNat ≤ s.rxBidx → Quiet s →
    a = decodeAddress (bodyBytes s s.rxBidx) s.cfgAlen.toNat s.cfgAfac.toNat → addrFits s.build a = true →
    (s.userSlot a = true ∨ s.builtinSlot a = false) →
    ∃ t, exec i s = .next t ∧
      t.events = s.events ++ .frame (bodyBytes s s.rxBidx) ::
        handlerEvents s a ((bodyBytes s s.rxBidx).drop s.cfgAlen.toNat) ∧
      Cleared t ∧ t.rxCap = s.rxCap ∧ SameConfig s t ∧ SameTables s t ∧ SameHost s t ∧ t.ret = s.ret

/-- `RX.STOP` with `RX_BIDX != RX_MSIZE` clears the assembler and is then `RAISE` of one `E1` with the sizes and bytes before
the clear (R124, 60_exceptions.md R241, R244, R249); no frame is dispatched. Where no callback is registered or it makes
no call, that error is the only event; where the callback writes frames, their `Tx` events follow it (R250, R284). -/
def Obligations.RxStopReportsSizeMismatch : Prop :=
  ∀ (s : State) (e : ErrorRec), s.rxBidx ≠ s.rxMsize.toNat → s.rxBidx ≤ s.rxCap →
    e = .sizeMismatch s.rxMsize.toNat s.rxBidx (bodyBytes s s.rxBidx) →
    (∃ u, exec .rxStop s = exec (.raise e) u ∧ Cleared u ∧ u.rxCap = s.rxCap ∧ SameConfig s u ∧ SameTables s u ∧
      SameHost s u ∧ SameOutputs s u) ∧
    ((s.errcbSet = false ∨ Quiet s) → ∃ t, exec .rxStop s = .next t ∧
      t.events = s.events ++ [.error e s.cfgLogen s.errcbSet] ∧
      Cleared t ∧ t.rxCap = s.rxCap ∧ SameConfig s t ∧ SameTables s t ∧ SameHost s t ∧ t.ret = s.ret) ∧
    ∀ (writes : List (Nat × List Byte)) (later : List (List HostTx)), s.errcbSet = true →
      s.hostCalls = planOf writes :: later → InBounds s writes → ∃ t, exec .rxStop s = .next t ∧
      t.events = s.events ++ .error e s.cfgLogen true :: writeEvents s writes ∧
      Cleared t ∧ t.rxCap = s.rxCap ∧ SameConfig s t ∧ SameTables s t ∧ PlansLeft s t later ∧ t.ret = s.ret

/-- A STOP while no length is known completes a frame of length 0 and is then `RAISE` of a runt error; no `E1` (R125; the
spec's decisions D8 and D9). The callback's writes, if it makes any, follow the error (60_exceptions.md R250). -/
def Obligations.StopWithoutLengthReportsRunt : Prop :=
  ∀ s : State, s.rxMsize = 0 → s.rxBidx = 0 → s.cfgAlen ≠ 0 →
    (∃ u, exec (.feed Config.stopByte) s = exec (.raise (.runtFrame 0 s.cfgAlen.toNat [])) u ∧ Cleared u ∧
      u.rxCap = s.rxCap ∧ u.events = s.events ++ [.frame []] ∧ u.ret = s.ret ∧ SameConfig s u ∧ SameTables s u ∧
      SameHost s u) ∧
    ((s.errcbSet = false ∨ Quiet s) → ∃ t, exec (.feed Config.stopByte) s = .next t ∧
      t.events = s.events ++
        [.frame [], .error (.runtFrame 0 s.cfgAlen.toNat []) s.cfgLogen s.errcbSet] ∧
      Cleared t ∧ t.rxCap = s.rxCap ∧ SameConfig s t ∧ SameTables s t ∧ SameHost s t ∧ t.ret = s.ret) ∧
    ∀ (writes : List (Nat × List Byte)) (later : List (List HostTx)), s.errcbSet = true →
      s.hostCalls = planOf writes :: later → InBounds s writes → ∃ t,
      exec (.feed Config.stopByte) s = .next t ∧
      t.events = s.events ++ .frame [] :: .error (.runtFrame 0 s.cfgAlen.toNat []) s.cfgLogen true ::
        writeEvents s writes ∧
      Cleared t ∧ t.rxCap = s.rxCap ∧ SameConfig s t ∧ SameTables s t ∧ PlansLeft s t later ∧ t.ret = s.ret

/-- The transition table over the implicit states (R130, 10_state.md R32), in every state that meets the invariant. After the
error of a row only `Tx` events of the error callback can follow (R284); a full frame goes on to `DISPATCH`. -/
def Obligations.TransitionTable : Prop :=
  ∀ (s : State) (b : Byte), Inv s →
    (b = Config.startByte → ∃ t, exec (.feed b) s = .next t ∧ t.phase = .waitLen ∧ t.events = s.events) ∧
    (b = Config.stopByte → ∀ t, exec (.feed b) s = .next t → t.phase = .waitLen ∧
      (s.phase = .waitLen → ∃ txs : List (List Byte), t.events = s.events ++ .frame [] ::
        .error (.runtFrame 0 s.cfgAlen.toNat []) s.cfgLogen s.errcbSet :: txs.map .tx) ∧
      (s.phase = .full → ∃ u es, exec (.dispatch (bodyBytes s s.rxMsize.toNat)) u = .next t ∧ Cleared u ∧
        u.events = s.events ++ [.frame (bodyBytes s s.rxMsize.toNat)] ∧ t.events = u.events ++ es ∧
        SameConfig s u ∧ SameTables s u ∧ SameHost s u) ∧
      ((s.phase = .accum ∨ s.phase = .overrun) → ∃ txs : List (List Byte), t.events = s.events ++
        .error (.sizeMismatch s.rxMsize.toNat s.rxBidx (bodyBytes s s.rxBidx)) s.cfgLogen s.errcbSet ::
          txs.map .tx)) ∧
    (Config.isSentinel b = false → s.phase = .waitLen → ∃ t, exec (.feed b) s = .next t ∧ t.events = s.events ∧
      t.phase = if b = 0 then .waitLen else .accum) ∧
    (Config.isSentinel b = false → s.phase ≠ .waitLen → ∀ t, exec (.feed b) s = .next t → t.events = s.events ∧
      (s.phase = .accum → t.phase = if s.rxBidx + 1 < s.rxMsize.toNat then .accum else .full) ∧
      (s.phase = .full ∨ s.phase = .overrun → t.phase = .overrun))

/-- `START, LEN, ADDR..., PAYLOAD..., STOP` with no sentinel inside, fed byte by byte from any state that meets the
invariant, yields exactly that body as one `Frame` and its dispatch (R132 (c), (d)); buffer growth loses nothing. -/
def Obligations.FrameFedByteByByteIsDispatched : Prop :=
  ∀ (s : State) (body : List Byte) (later : List HostTx), Inv s → RoomForFrames s.build →
    1 ≤ body.length → body.length ≤ 253 → sentinelFree body = true →
    s.hostIn = (Config.startByte :: BitVec.ofNat 8 body.length :: (body ++ [Config.stopByte])).map .feed ++ later →
    ∃ t u, Host.Core.run Sys2Proof.core (body.length + 2) s = .next t ∧ t.events = s.events ∧ SameConfig s t ∧
      SameTables s t ∧ t.phase = .full ∧ step t = exec (.dispatch body) u ∧ Cleared u ∧
      u.events = s.events ++ [.frame body] ∧ SameConfig s u ∧ SameTables s u ∧ u.build = s.build ∧
      u.hostIn = later ∧ u.hostCalls = s.hostCalls

/-- What `WRITE` sends, a receiver in the same configuration with a generic handler takes in byte by byte and hands over
at the address the field can hold, with the payload unchanged (43_frame_writer.md R171, 42_address_codec.md R159,
40_receive_fsm.md R132 (c)). -/
def Obligations.ReceiverHandsOverWhatWasWritten : Prop :=
  ∀ (w w' s : State) (a a' : Nat) (p bytes : List Byte),
    exec (.write a p) w = .next w' → w'.events = w.events ++ [.tx bytes] →
    Inv s → RoomForFrames s.build → SameConfig w s → s.genSet = true → Quiet s →
    s.cfgAlen.toNat + p.length ≤ 253 → sentinelFree p = true → s.hostIn = bytes.map .feed →
    a' = a % s.cfgAfac.toNat ^ s.cfgAlen.toNat → addrFits s.build a' = true →
    (s.userSlot a' = true ∨ s.builtinSlot a' = false) →
    ∃ t body, Host.Core.run Sys2Proof.core bytes.length s = .next t ∧
      t.events = s.events ++ .frame body :: handlerEvents s a' p ∧ body.drop s.cfgAlen.toNat = p ∧
      Cleared t ∧ SameConfig s t ∧ SameTables s t ∧ t.hostIn = []

/-! ## The receive buffer (41_receive_buffer.md) -/

/-- `BUF.CLEAR` (R140): both registers 0 and every byte `BUF_CLEAR_VALUE`; the capacity stays (the value is the spec's
decision D12). -/
def Obligations.BufClearZeroesTheAssembler : Prop :=
  ∀ s : State, ∃ t, exec .bufClear s = .next t ∧ Cleared t ∧ t.rxCap = s.rxCap ∧ SameConfig s t ∧ SameTables s t ∧
    SameHost s t ∧ SameOutputs s t

/-- `BUF.GROW` (R144, R145): the capacity doubles, every byte below the old capacity keeps its value and index, the new
half is cleared (D12); past a finite `BUF_CAP_MAX` it is the fault `BufferExhausted` (D11). -/
def Obligations.BufGrowDoublesAndCopies : Prop :=
  ∀ s : State,
    (capAllowed s.build (2 * s.rxCap) = true → ∃ t, exec .bufGrow s = .next t ∧ t.rxCap = 2 * s.rxCap ∧
      (∀ a, a < s.rxCap → t.rxBuf.read a = s.rxBuf.read a) ∧
      (∀ a, s.rxCap ≤ a → t.rxBuf.read a = Config.bufClearValue) ∧
      t.rxMsize = s.rxMsize ∧ t.rxBidx = s.rxBidx ∧ SameConfig s t ∧ SameTables s t ∧ SameHost s t ∧
      SameOutputs s t) ∧
    (capAllowed s.build (2 * s.rxCap) = false → exec .bufGrow s = .fault (.bufferExhausted s.events))

/-- `BUF.SNAPSHOT` (R147): the list `RXBUF[0 .. RX_MSIZE)` is returned; no state changes. -/
def Obligations.SnapshotReturnsTheBody : Prop :=
  ∀ s : State, s.rxMsize.toNat ≤ s.rxCap → ∃ t frame, exec .bufSnapshot s = .next t ∧
    t.ret = some (.bytes frame) ∧ frame.length = s.rxMsize.toNat ∧
    (∀ i, i < s.rxMsize.toNat → frame[i]? = some (s.rxBuf.read i)) ∧
    SameReceive s t ∧ SameConfig s t ∧ SameTables s t ∧ SameHost s t ∧ t.events = s.events

/-! ## The address codec (42_address_codec.md) -/

/-- `ENCODE(a, w, f)` (R156): `w` bytes, `out[i] = (a div f^(w-1-i)) mod f`, for every radix whose digits fit a byte (each
radix up to 256 does); radix 0 is the fault `EncodeRadixZero`. -/
def Obligations.EncodeWritesTheDigits : Prop :=
  ∀ (a w f : Nat) (s : State), 1 ≤ w →
    (1 ≤ f → (f ≤ 256 ∨ ∀ i, i < w → a / f ^ (w - 1 - i) % f < 256) → ∃ t out,
      exec (.encode a w f) s = .next t ∧ t.ret = some (.bytes out) ∧ out.length = w ∧
      (∀ i, i < w → out[i]?.map BitVec.toNat = some (a / f ^ (w - 1 - i) % f)) ∧
      SameReceive s t ∧ SameConfig s t ∧ SameTables s t ∧ SameHost s t ∧ t.events = s.events) ∧
    (f = 0 → exec (.encode a w f) s = .fault (.encodeRadixZero s.events))

/-- `ENCODE(a, w, f)` in every radix of 1 or more, also one above 256, runs and changes nothing but the value it returns. Of its
`w` bytes each digit below 256 stands at its index. A digit of 256 or more, which no byte holds, leaves its own byte free:
the spec states none, and this statement says nothing of it (R155, R156; this model's choice, log 25). -/
def Obligations.WideDigitLeavesOnlyItsByteFree : Prop :=
  ∀ (a w f : Nat) (s : State), 1 ≤ w → 1 ≤ f → ∃ t out, exec (.encode a w f) s = .next t ∧
    t.ret = some (.bytes out) ∧ out.length = w ∧
    (∀ i, i < w → a / f ^ (w - 1 - i) % f < 256 →
      out[i]?.map BitVec.toNat = some (a / f ^ (w - 1 - i) % f)) ∧
    (∀ (u : State), ∃ v, exec (.encode a w f) u = .next v ∧ v.ret = some (.bytes out)) ∧
    SameReceive s t ∧ SameConfig s t ∧ SameTables s t ∧ SameHost s t ∧ t.events = s.events

/-- Digits above position `w - 1` are lost without an error: `ENCODE(a, w, f) = ENCODE(a mod f^w, w, f)` (R157). -/
def Obligations.EncodeTruncatesHighDigits : Prop :=
  ∀ (a w f : Nat) (s : State), 1 ≤ f → exec (.encode a w f) s = exec (.encode (a % f ^ w) w f) s

/-- `DECODE(bytes, w, f)` (R158): the sum of `bytes[i] * f^(w-1-i)` over the first `w` bytes, any byte accepted as a
digit, for every radix with `f^0 = 1`. -/
def Obligations.DecodeIsTheWeightedSum : Prop :=
  ∀ (bytes : List Byte) (w f n : Nat) (s : State), 1 ≤ w → w ≤ bytes.length →
    n = ∑ i ∈ Finset.range w, (bytes.getD i 0).toNat * f ^ (w - 1 - i) → addrFits s.build n = true →
    ∃ t, exec (.decode bytes w f) s = .next t ∧ t.ret = some (.nat n) ∧
      SameReceive s t ∧ SameConfig s t ∧ SameTables s t ∧ SameHost s t ∧ t.events = s.events

/-- The round trip (R159): decoding what `ENCODE` returned gives `a mod f^w`, so `a` where it fits; encoding what
`DECODE` gives returns the bytes exactly when every byte is below the radix. Only where every digit has a byte, as it has in
every radix up to 256: the byte of a digit of 256 or more is free (log 25). -/
def Obligations.CodecRoundTrips : Prop :=
  (∀ (a w f : Nat) (s t : State) (out : List Byte), 1 ≤ f →
    (f ≤ 256 ∨ ∀ i, i < w → a / f ^ (w - 1 - i) % f < 256) → exec (.encode a w f) s = .next t →
    t.ret = some (.bytes out) → decodeAddress out w f = a % f ^ w) ∧
  (∀ (a w r : Nat) (s t : State) (out : List Byte), 2 ≤ r → a < r ^ w →
    (r ≤ 256 ∨ ∀ i, i < w → a / r ^ (w - 1 - i) % r < 256) → exec (.encode a w r) s = .next t →
    t.ret = some (.bytes out) → decodeAddress out w r = a) ∧
  ∀ (out : List Byte) (w f : Nat) (s : State), 1 ≤ f → out.length = w →
    ((∃ t, exec (.encode (decodeAddress out w f) w f) s = .next t ∧ t.ret = some (.bytes out)) ↔
      ∀ b ∈ out, b.toNat < f)

/-- Radix 1 (R160): every address encodes as zeros and decoding is the plain sum. -/
def Obligations.RadixOneIsUnary : Prop :=
  (∀ (a w : Nat) (s : State), 1 ≤ w → ∃ t, exec (.encode a w 1) s = .next t ∧
    t.ret = some (.bytes (List.replicate w 0))) ∧
  ∀ (bytes : List Byte) (w : Nat) (s : State), 1 ≤ w → w ≤ bytes.length →
    addrFits s.build ((bytes.take w).map BitVec.toNat).sum = true →
    ∃ t, exec (.decode bytes w 1) s = .next t ∧ t.ret = some (.nat ((bytes.take w).map BitVec.toNat).sum)

/-- Radix 0 (R161; the spec's decision D15): decoding gives the last byte of the field, encoding faults. -/
def Obligations.RadixZeroDecodesTheLastByte : Prop :=
  (∀ (bytes : List Byte) (w : Nat) (s : State), 1 ≤ w → w ≤ bytes.length →
    addrFits s.build (bytes.getD (w - 1) 0).toNat = true →
    ∃ t, exec (.decode bytes w 0) s = .next t ∧ t.ret = some (.nat (bytes.getD (w - 1) 0).toNat)) ∧
  ∀ (a w : Nat) (s : State), exec (.encode a w 0) s = .fault (.encodeRadixZero s.events)

/-- With a finite `ADDR_W`, a decoded address that does not fit is the fault `AddressOverflow`, in DECODE and so in
DISPATCH (R164; the spec's decision D4). -/
def Obligations.AddressOverflowFaults : Prop :=
  (∀ (bytes : List Byte) (w f : Nat) (s : State), w ≤ bytes.length →
    addrFits s.build (decodeAddress bytes w f) = false →
    exec (.decode bytes w f) s = .fault (.addressOverflow s.events)) ∧
  ∀ (frame : List Byte) (s : State), s.cfgAlen.toNat ≤ frame.length →
    addrFits s.build (decodeAddress frame s.cfgAlen.toNat s.cfgAfac.toNat) = false →
    exec (.dispatch frame) s = .fault (.addressOverflow s.events)

/-- The model's own refusal in the codec (log 7): `DECODE` of fewer bytes than the width, an operand that R158 leaves out, is
refused by name, and `DECODE` is refused nowhere else. `ENCODE` answers the fault `EncodeRadixZero` exactly in radix 0 (R161;
the spec's decision D15), and a next state in every other. Width 0, which R156 and R158 leave out too, runs (log 7). -/
def Obligations.ShortFieldIsRefusedAndRadixZeroFaults : Prop :=
  (∀ (bytes : List Byte) (w f : Nat) (s : State),
    exec (.decode bytes w f) s = .refused .shortField ↔ bytes.length < w) ∧
  (∀ (bytes : List Byte) (w f : Nat) (s : State) (r : Refusal),
    exec (.decode bytes w f) s = .refused r → r = .shortField) ∧
  ∀ (a w f : Nat) (s : State), (exec (.encode a w f) s = .fault (.encodeRadixZero s.events) ↔ f = 0) ∧
    ((∃ t, exec (.encode a w f) s = .next t) ↔ f ≠ 0)

/-! ## The frame writer (43_frame_writer.md) -/

/-- `WRITE(address, payload)` (R171): one `Tx` with START, LEN, the encoded address, the payload, STOP, of length
`L + n + 3`, and no state change; too long a payload faults first, then a radix of 0. -/
def Obligations.WriteSendsOneFrame : Prop :=
  ∀ (a : Nat) (p bytes : List Byte) (s : State),
    bytes = [254, BitVec.ofNat 8 (s.cfgAlen.toNat + p.length)] ++
      digitBytes (encodeDigits a s.cfgAlen.toNat s.cfgAfac.toNat) ++ p ++ [255] →
    (s.cfgAlen.toNat + p.length ≤ 255 → s.cfgAfac ≠ 0 → bytes.length = s.cfgAlen.toNat + p.length + 3 ∧
      ∃ t, exec (.write a p) s = .next t ∧ t.events = s.events ++ [.tx bytes] ∧ t.ret = s.ret ∧ SameReceive s t ∧
        SameConfig s t ∧ SameTables s t ∧ SameHost s t) ∧
    (255 < s.cfgAlen.toNat + p.length → exec (.write a p) s = .fault (.txLengthOverflow s.events)) ∧
    (s.cfgAlen.toNat + p.length ≤ 255 → s.cfgAfac = 0 → exec (.write a p) s = .fault (.encodeRadixZero s.events))

/-! ## The dispatcher and the table (44_dispatcher.md) -/

/-- A frame shorter than the address field is not decoded and reaches no handler: `DISPATCH` of it is `RAISE` of one `E2`
and the block goes on (R183, 60_exceptions.md R242; the spec's decision D9). The callback's writes, if it makes any,
follow the error (60_exceptions.md R250). -/
def Obligations.RuntFrameIsReportedAndDropped : Prop :=
  ∀ (frame : List Byte) (s : State) (e : ErrorRec), frame.length < s.cfgAlen.toNat →
    e = .runtFrame frame.length s.cfgAlen.toNat frame →
    exec (.dispatch frame) s = exec (.raise e) s ∧
    ((s.errcbSet = false ∨ Quiet s) → ∃ t, exec (.dispatch frame) s = .next t ∧
      t.events = s.events ++ [.error e s.cfgLogen s.errcbSet] ∧
      t.ret = s.ret ∧ SameReceive s t ∧ SameConfig s t ∧ SameTables s t ∧ SameHost s t) ∧
    ∀ (writes : List (Nat × List Byte)) (later : List (List HostTx)), s.errcbSet = true →
      s.hostCalls = planOf writes :: later → InBounds s writes → ∃ t, exec (.dispatch frame) s = .next t ∧
      t.events = s.events ++ .error e s.cfgLogen true :: writeEvents s writes ∧
      t.ret = s.ret ∧ SameReceive s t ∧ SameConfig s t ∧ SameTables s t ∧ PlansLeft s t later

/-- The resolution order (R184), the handlers making no call of their own: generic if set; then the user handler if its
slot is occupied; else the built-in command with its event first; else nothing. -/
def Obligations.DispatchResolvesInOrder : Prop :=
  ∀ (frame p : List Byte) (s : State) (a : Nat), s.cfgAlen.toNat ≤ frame.length → Quiet s →
    a = decodeAddress frame s.cfgAlen.toNat s.cfgAfac.toNat → p = frame.drop s.cfgAlen.toNat →
    addrFits s.build a = true →
    ((s.userSlot a = true ∨ s.builtinSlot a = false) → ∃ t, exec (.dispatch frame) s = .next t ∧
      t.events = s.events ++ handlerEvents s a p ∧ t.ret = s.ret ∧ SameReceive s t ∧ SameConfig s t ∧
      SameTables s t ∧ SameHost s t) ∧
    (s.userSlot a = false → s.builtinSlot a = true → ∃ i, decodeCommand a p = .ok i ∧
      exec (.dispatch frame) s =
        exec i { s with events := s.events ++ (handlerEvents s a p ++ [.invoke .builtin a p]) })

/-- A user handler at an address below 10 shadows the built-in (R186): once it is registered, no frame to that address
runs the built-in or changes the configuration. -/
def Obligations.RegisteredHandlerShadowsTheBuiltin : Prop :=
  (∀ (a : Nat) (s : State), ∃ t, exec (.register a) s = .next t ∧ t.userSlot a = true) ∧
  ∀ (a : Nat) (frame : List Byte) (s t : State), s.userSlot a = true → s.cfgAlen.toNat ≤ frame.length →
    a = decodeAddress frame s.cfgAlen.toNat s.cfgAfac.toNat → exec (.dispatch frame) s = .next t →
    SameConfig s t ∧ ∃ es, t.events = s.events ++ es ∧ ∀ b q, Event.invoke .builtin b q ∉ es

/-- `REGISTER(a)` (R190, R191): the slot is occupied, every other slot is as it was, and the table grows to `a + 5` slots
exactly when `a` is outside it. -/
def Obligations.RegisterOccupiesTheSlot : Prop :=
  ∀ (a : Nat) (s : State), ∃ t, exec (.register a) s = .next t ∧ t.userSlot a = true ∧
    (∀ k, k ≠ a → t.userSlot k = s.userSlot k) ∧ (a < s.tblCap → t.tblCap = s.tblCap) ∧
    (s.tblCap ≤ a → t.tblCap = a + 5) ∧ t.genSet = s.genSet ∧ t.errcbSet = s.errcbSet ∧ t.bi = s.bi ∧
    SameReceive s t ∧ SameConfig s t ∧ SameHost s t ∧ SameOutputs s t

/-! ## The built-in commands (45_builtin_commands.md) -/

/-- `CMD0` (R200): `payload[0]` becomes `CFG_ALEN`, 0 clamped to 1; an empty payload changes nothing. That the byte is
unsigned is the spec's decision D16. -/
def Obligations.CommandZeroSetsAddressLength : Prop :=
  ∀ (a : Nat) (s : State), exec (.cmd0 a []) s = .next s ∧
    ∀ (v : Byte) (rest : List Byte), ∃ t, exec (.cmd0 a (v :: rest)) s = .next t ∧
      t.cfgAlen = (if v = 0 then 1 else v) ∧ t.cfgAfac = s.cfgAfac ∧ t.cfgLogen = s.cfgLogen ∧ SameReceive s t ∧
      SameTables s t ∧ SameHost s t ∧ SameOutputs s t

/-- `CMD1` (R201): `payload[0]` becomes `CFG_AFAC` with no clamp; an empty payload changes nothing. -/
def Obligations.CommandOneSetsAddressFactor : Prop :=
  ∀ (a : Nat) (s : State), exec (.cmd1 a []) s = .next s ∧
    ∀ (v : Byte) (rest : List Byte), ∃ t, exec (.cmd1 a (v :: rest)) s = .next t ∧
      t.cfgAfac = v ∧ t.cfgAlen = s.cfgAlen ∧ t.cfgLogen = s.cfgLogen ∧ SameReceive s t ∧
      SameTables s t ∧ SameHost s t ∧ SameOutputs s t

/-- `CMD2` to `CMD7` (R202): no state change and no event of their own. -/
def Obligations.ReservedCommandsChangeNothing : Prop :=
  ∀ (i : Instr) (a : Nat) (p : List Byte) (s : State),
    i ∈ [Instr.cmd2 a p, .cmd3 a p, .cmd4 a p, .cmd5 a p, .cmd6 a p, .cmd7 a p] → exec i s = .next s

/-- `CMD8` (R203): logging is enabled exactly when the payload is non-empty and its first byte is 1. -/
def Obligations.CommandEightSetsLogging : Prop :=
  ∀ (a : Nat) (p : List Byte) (s : State), ∃ t, exec (.cmd8 a p) s = .next t ∧
    (t.cfgLogen = true ↔ ∃ rest, p = 1 :: rest) ∧ t.cfgAlen = s.cfgAlen ∧ t.cfgAfac = s.cfgAfac ∧
    SameReceive s t ∧ SameTables s t ∧ SameHost s t ∧ SameOutputs s t

/-- `CMD9` (R204, 30_encoding.md R101): one frame to the request's address with the three (tag, value, separator) triples;
no state changes; its faults are those of WRITE. The tags are build parameters (the spec's decision D13). -/
def Obligations.CommandNineSendsTheStatus : Prop :=
  ∀ (a : Nat) (p reply : List Byte) (s : State),
    reply = [s.build.tagAlen, s.cfgAlen, 0x7C, s.build.tagAfac, s.cfgAfac, 0x7C, s.build.tagLogen,
      (if s.cfgLogen then 1 else 0), 0x7C] →
    (s.cfgAlen.toNat ≤ 246 → s.cfgAfac ≠ 0 → ∃ t, exec (.cmd9 a p) s = .next t ∧
      t.events = s.events ++ [.tx ([254, BitVec.ofNat 8 (s.cfgAlen.toNat + 9)] ++
        digitBytes (encodeDigits a s.cfgAlen.toNat s.cfgAfac.toNat) ++ reply ++ [255])] ∧
      t.ret = s.ret ∧ SameReceive s t ∧ SameConfig s t ∧ SameTables s t ∧ SameHost s t) ∧
    (s.cfgAlen.toNat ≤ 246 → s.cfgAfac = 0 → exec (.cmd9 a p) s = .fault (.encodeRadixZero s.events)) ∧
    (247 ≤ s.cfgAlen.toNat → exec (.cmd9 a p) s = .fault (.txLengthOverflow s.events))

/-! ## Host operations (46_host_operations.md) -/

/-- `SETGENERIC(on)` and `SETGENERIC(off)` (R222): `GEN_SET` and nothing else. -/
def Obligations.SetGenericSetsOrClears : Prop :=
  ∀ (on : Bool) (s : State), ∃ t, exec (.setGeneric on) s = .next t ∧ t.genSet = on ∧ t.errcbSet = s.errcbSet ∧
    t.tblCap = s.tblCap ∧ t.tbl = s.tbl ∧ t.bi = s.bi ∧ SameReceive s t ∧ SameConfig s t ∧ SameHost s t ∧
    SameOutputs s t

/-- `SETERRCB` (R223): `ERRCB_SET <- 1` and nothing else; once set it stays set through every step that is no `RESET`. -/
def Obligations.SetErrcbRegistersTheCallback : Prop :=
  (∀ s : State, ∃ t, exec .setErrcb s = .next t ∧ t.errcbSet = true ∧ t.genSet = s.genSet ∧
    t.tblCap = s.tblCap ∧ t.tbl = s.tbl ∧ t.bi = s.bi ∧ SameReceive s t ∧ SameConfig s t ∧ SameHost s t ∧
    SameOutputs s t) ∧
  ∀ s t : State, s.errcbSet = true → s.hostIn.head? ≠ some .reset → step s = .next t → t.errcbSet = true

/-! ## Errors and calls into the host (60_exceptions.md, 70_reset_and_hazards.md) -/

/-- `RAISE(code, fields)` (R244, R246; the event's shape is the spec's decision D25): one `Error` event with
`logged = CFG_LOGEN` and `delivered = ERRCB_SET`, no state change. -/
def Obligations.RaiseReportsOneError : Prop :=
  ∀ (e : ErrorRec) (s : State), (s.errcbSet = false ∨ Quiet s) → ∃ t, exec (.raise e) s = .next t ∧
    t.events = s.events ++ [.error e s.cfgLogen s.errcbSet] ∧ t.ret = s.ret ∧ SameReceive s t ∧ SameConfig s t ∧
    SameTables s t ∧ SameHost s t

/-- The `WRITE`s made by the error callback: their `Tx` events right after the `Error` event in the order of the calls, and
nothing else of the block changes (R250, R284; the spec's decision D23). What the callback does is in `hostCalls`
(log 3). -/
def Obligations.CallbackWriteFollowsItsError : Prop :=
  ∀ (e : ErrorRec) (s : State) (writes : List (Nat × List Byte)) (later : List (List HostTx)), s.errcbSet = true →
    s.hostCalls = planOf writes :: later → InBounds s writes → ∃ t, exec (.raise e) s = .next t ∧
    t.events = s.events ++ .error e s.cfgLogen true :: writeEvents s writes ∧
    t.ret = s.ret ∧ SameReceive s t ∧ SameConfig s t ∧ SameTables s t ∧ PlansLeft s t later

/-- The `WRITE`s of a user handler, no generic handler being set: their `Tx` events follow its `Invoke` in the order of the
calls, and nothing else of the block changes (44_dispatcher.md R188, 70_reset_and_hazards.md R284; what the handler does
is in `hostCalls`, log 3). -/
def Obligations.UserHandlerWritesFollowItsInvocation : Prop :=
  ∀ (frame p : List Byte) (s : State) (a : Nat) (writes : List (Nat × List Byte)) (later : List (List HostTx)),
    s.genSet = false → s.userSlot a = true → s.cfgAlen.toNat ≤ frame.length →
    a = decodeAddress frame s.cfgAlen.toNat s.cfgAfac.toNat → p = frame.drop s.cfgAlen.toNat →
    addrFits s.build a = true → s.hostCalls = planOf writes :: later → InBounds s writes → ∃ t,
    exec (.dispatch frame) s = .next t ∧
    t.events = s.events ++ .invoke .user a p :: writeEvents s writes ∧
    t.ret = s.ret ∧ SameReceive s t ∧ SameConfig s t ∧ SameTables s t ∧ PlansLeft s t later

/-- The `WRITE`s of the generic handler stand before whatever the route of the frame does (44_dispatcher.md R184, R188,
70_reset_and_hazards.md R284; the spec's decision D23): before the user handler's `Invoke` and its writes, on a frame that
no handler serves, and before a built-in command, which then runs. `later` holds the plans of the coming invocations
(log 3). -/
def Obligations.GenericWritesPrecedeTheRoute : Prop :=
  ∀ (frame p : List Byte) (s : State) (a : Nat) (writes : List (Nat × List Byte)) (later : List (List HostTx))
    (front : List Event), s.genSet = true → s.cfgAlen.toNat ≤ frame.length →
    a = decodeAddress frame s.cfgAlen.toNat s.cfgAfac.toNat → p = frame.drop s.cfgAlen.toNat →
    addrFits s.build a = true → s.hostCalls = planOf writes :: later → InBounds s writes →
    front = .invoke .generic a p :: writeEvents s writes →
    (∀ (own : List (Nat × List Byte)) (left : List (List HostTx)), s.userSlot a = true → InBounds s own →
      (later = planOf own :: left ∨ (later = [] ∧ own = [] ∧ left = [])) → ∃ t,
      exec (.dispatch frame) s = .next t ∧
      t.events = s.events ++ (front ++ .invoke .user a p :: writeEvents s own) ∧
      t.ret = s.ret ∧ SameReceive s t ∧ SameConfig s t ∧ SameTables s t ∧ PlansLeft s t left) ∧
    (s.userSlot a = false → s.builtinSlot a = false → ∃ t, exec (.dispatch frame) s = .next t ∧
      t.events = s.events ++ front ∧
      t.ret = s.ret ∧ SameReceive s t ∧ SameConfig s t ∧ SameTables s t ∧ PlansLeft s t later) ∧
    (s.userSlot a = false → s.builtinSlot a = true → ∃ i u, decodeCommand a p = .ok i ∧
      exec (.dispatch frame) s = exec i u ∧ u.events = s.events ++ (front ++ [.invoke .builtin a p]) ∧
      u.ret = s.ret ∧ SameReceive s u ∧ SameConfig s u ∧ SameTables s u ∧ PlansLeft s u later)

/-- When the generic handler writes frames while a status request is dispatched, its frames precede the status reply
(70_reset_and_hazards.md R284; the spec's decision D23). -/
def Obligations.HandlerWritePrecedesTheStatusReply : Prop :=
  ∀ (frame p : List Byte) (s : State) (writes : List (Nat × List Byte)) (later : List (List HostTx)),
    s.genSet = true → s.userSlot 9 = false → s.builtinSlot 9 = true → s.cfgAlen.toNat ≤ frame.length →
    decodeAddress frame s.cfgAlen.toNat s.cfgAfac.toNat = 9 → addrFits s.build 9 = true →
    p = frame.drop s.cfgAlen.toNat → s.hostCalls = planOf writes :: later → InBounds s writes →
    s.cfgAlen.toNat ≤ 246 → s.cfgAfac ≠ 0 → ∃ t, exec (.dispatch frame) s = .next t ∧
    t.events = s.events ++ (.invoke .generic 9 p :: writeEvents s writes ++
      [.invoke .builtin 9 p, .tx (encodeWire s.cfgAlen.toNat s.cfgAfac.toNat 9 (statusReply s))]) ∧
    t.ret = s.ret ∧ SameReceive s t ∧ SameConfig s t ∧ SameTables s t ∧ PlansLeft s t later

/-- A handler's `WRITE` that faults ends the step where it stands, and what was emitted before it has happened
(43_frame_writer.md R171, R172, 60_exceptions.md R248; the spec's decisions D15 and D18): after the writes within the
bounds that precede it, a payload too long, or a radix of 0. In the callback, and in the first handler of a dispatch. -/
def Obligations.HandlerWriteFaultEndsTheStep : Prop :=
  ∀ (writes : List (Nat × List Byte)) (a : Nat) (p : List Byte) (rest : List HostTx) (later : List (List HostTx))
    (s : State), s.hostCalls = (planOf writes ++ .write a p :: rest) :: later → InBounds s writes →
    (∀ e : ErrorRec, s.errcbSet = true →
      (255 < s.cfgAlen.toNat + p.length → exec (.raise e) s =
        .fault (.txLengthOverflow (s.events ++ .error e s.cfgLogen true :: writeEvents s writes))) ∧
      (s.cfgAlen.toNat + p.length ≤ 255 → s.cfgAfac = 0 → exec (.raise e) s =
        .fault (.encodeRadixZero (s.events ++ .error e s.cfgLogen true :: writeEvents s writes)))) ∧
    ∀ (frame q : List Byte) (b : Nat) (who : Target), s.cfgAlen.toNat ≤ frame.length →
      b = decodeAddress frame s.cfgAlen.toNat s.cfgAfac.toNat → q = frame.drop s.cfgAlen.toNat →
      addrFits s.build b = true →
      (who = .generic ∧ s.genSet = true ∨ who = .user ∧ s.genSet = false ∧ s.userSlot b = true) →
      (255 < s.cfgAlen.toNat + p.length → exec (.dispatch frame) s =
        .fault (.txLengthOverflow (s.events ++ .invoke who b q :: writeEvents s writes))) ∧
      (s.cfgAlen.toNat + p.length ≤ 255 → s.cfgAfac = 0 → exec (.dispatch frame) s =
        .fault (.encodeRadixZero (s.events ++ .invoke who b q :: writeEvents s writes)))

/-- A transaction other than `WRITE` from inside a handler or the callback is refused, whatever frames were written before it
(R257, 70_reset_and_hazards.md R282, R283; the spec's decision D23): in the callback of `RAISE`, of the `E1` or the runt
of `RX.STOP`, of the runt of `DISPATCH`; in the first handler a dispatch invokes; and in the user handler after a generic
handler that wrote frames and returned. -/
def Obligations.HandlersMayNotReenter : Prop :=
  ∀ (c : HostTx) (rest : List HostTx) (later : List (List HostTx)) (writes : List (Nat × List Byte)) (s : State),
    (∀ a p, c ≠ .write a p) → InBounds s writes →
    (s.hostCalls = (planOf writes ++ c :: rest) :: later → s.errcbSet = true →
      (∀ e : ErrorRec, exec (.raise e) s = .refused (.insideHandler c)) ∧
      (s.rxBidx ≠ s.rxMsize.toNat → s.rxBidx ≤ s.rxCap → exec .rxStop s = .refused (.insideHandler c)) ∧
      (s.rxBidx = s.rxMsize.toNat → s.rxBidx ≤ s.rxCap → s.rxBidx < s.cfgAlen.toNat →
        exec .rxStop s = .refused (.insideHandler c)) ∧
      ∀ frame : List Byte, frame.length < s.cfgAlen.toNat → exec (.dispatch frame) s = .refused (.insideHandler c)) ∧
    ∀ (frame : List Byte) (a : Nat), s.cfgAlen.toNat ≤ frame.length →
      a = decodeAddress frame s.cfgAlen.toNat s.cfgAfac.toNat → addrFits s.build a = true →
      (s.hostCalls = (planOf writes ++ c :: rest) :: later → (s.genSet = true ∨ s.userSlot a = true) →
        exec (.dispatch frame) s = .refused (.insideHandler c)) ∧
      ∀ before : List (Nat × List Byte), s.genSet = true → s.userSlot a = true → InBounds s before →
        s.hostCalls = planOf before :: (planOf writes ++ c :: rest) :: later →
        exec (.dispatch frame) s = .refused (.insideHandler c)

/-! ## Rules of the whole machine -/

/-- Only `CMD0`, `CMD1` and `CMD8` write a configuration register, each its own, and only when DISPATCH reaches them;
no other transaction but RESET changes one (10_state.md R27 to R29, 46_host_operations.md R220). -/
def Obligations.ConfigurationChangesOnlyThroughItsCommand : Prop :=
  (∀ (tx : HostTx) (s t : State), tx ≠ .reset → tx ≠ .feed Config.stopByte → exec (decodeTx tx) s = .next t →
    SameConfig s t) ∧
  ∀ (frame : List Byte) (s t : State) (a : Nat), a = decodeAddress frame s.cfgAlen.toNat s.cfgAfac.toNat →
    exec (.dispatch frame) s = .next t →
    (t.cfgAlen ≠ s.cfgAlen → a = 0 ∧ s.userSlot a = false ∧ s.cfgAlen.toNat < frame.length) ∧
    (t.cfgAfac ≠ s.cfgAfac → a = 1 ∧ s.userSlot a = false ∧ s.cfgAlen.toNat < frame.length) ∧
    (t.cfgLogen ≠ s.cfgLogen → a = 8 ∧ s.userSlot a = false)

/-- Every step but a RESET keeps what is registered: the capacity never shrinks, the callback stays, an occupied slot
stays occupied, the built-in table and the build parameters are constant (10_state.md R25, R34, R35, R37,
70_reset_and_hazards.md R271). -/
def Obligations.EveryStepKeepsRegistrations : Prop :=
  ∀ s t : State, step s = .next t → s.hostIn.head? ≠ some .reset →
    s.rxCap ≤ t.rxCap ∧ s.tblCap ≤ t.tblCap ∧ (s.errcbSet = true → t.errcbSet = true) ∧
    (∀ a, s.userSlot a = true → t.userSlot a = true) ∧ t.bi = s.bi ∧ t.build = s.build

/-- One step raises at most one error and yields at most one frame, first of its events; emitted events stay; a byte that
is not STOP emits nothing (60_exceptions.md R248, 40_receive_fsm.md R130). -/
def Obligations.EachStepReportsAtMostOneError : Prop :=
  ∀ s t : State, step s = .next t → ∃ es, t.events = s.events ++ es ∧ es.countP Event.isError ≤ 1 ∧
    (∀ e ∈ es.tail, e.isFrame = false) ∧
    ∀ b, s.hostIn.head? = some (.feed b) → b ≠ Config.stopByte → es = []

/-- From a state that meets the invariant no step ends in a stop of the model's own: every access to the buffer lies inside
it (00_scope.md R10, 20_memory.md R65), and no short field is decoded. -/
def Obligations.StopsOfTheModelAreUnreachable : Prop :=
  ∀ s : State, Inv s → (∀ happened, step s ≠ .fault (.bufferRange happened)) ∧ step s ≠ .refused .shortField

/-- The capacities are unobservable without a finite `BUF_CAP_MAX` (10_state.md R44 (a), (c)): two states that differ in
`RX_CAP` and `TBL_CAP` only step to outcomes that differ in them only, with the same events, or stop alike. -/
def Obligations.HiddenCapacitiesAreUnobservable : Prop :=
  ∀ s t : State, Inv s → Inv t → s.build.bufCapMax = none → DifferInCapacity s t → SameOutcome (step s) (step t)
end

