-- ==== Sys2Proof/Laws/Memory.lean ====
section
/-! SUPPORT. The laws of the receive buffer's memory: read after write, and that every memory operation keeps the
canonical form. -/

namespace Sys2Proof.Machine

@[simp] theorem Memory.read_nil (a : Nat) : Memory.read [] a = unlisted := rfl

@[simp] theorem Memory.wf_nil : Memory.wf [] = true := rfl

theorem Memory.wf_cons {k : Nat} {v : Byte} {m : Memory} :
    Memory.wf ((k, v) :: m) = true ↔ v ≠ unlisted ∧ (∀ c ∈ m, k < c.1) ∧ Memory.wf m = true := by
  simp [Memory.wf, and_assoc]

/-- No cell at an address: it reads as `unlisted`. -/
theorem Memory.read_of_not_listed {m : Memory} {a : Nat} (h : ∀ c ∈ m, c.1 ≠ a) : m.read a = unlisted := by
  induction m with
  | nil => rfl
  | cons c m ih =>
    obtain ⟨k, v⟩ := c
    have hk : k ≠ a := h (k, v) (by simp)
    simp only [Memory.read, hk, if_false]
    exact ih fun c hc => h c (by simp [hc])

/-- Writing one address leaves every other address alone, whatever the list. -/
theorem Memory.read_write_other {m : Memory} {a a' : Nat} (b : Byte) (h : a' ≠ a) :
    (m.write a b).read a' = m.read a' := by
  induction m with
  | nil =>
    unfold Memory.write
    split <;> simp [Memory.read, h.symm]
  | cons c m ih =>
    obtain ⟨k, v⟩ := c
    unfold Memory.write
    split_ifs with h1 h2 h2 h3
    · rfl
    · simp [Memory.read, h.symm]
    · subst h2; simp [Memory.read, h.symm]
    · subst h2; simp [Memory.read, h.symm]
    · simp only [Memory.read, ih]

/-- In a canonical list the written byte is read back. -/
theorem Memory.read_write_same {m : Memory} (hm : m.wf = true) (a : Nat) (b : Byte) :
    (m.write a b).read a = b := by
  induction m with
  | nil =>
    unfold Memory.write
    split <;> simp_all [Memory.read]
  | cons c m ih =>
    obtain ⟨k, v⟩ := c
    obtain ⟨hv, hk, hm'⟩ := Memory.wf_cons.mp hm
    unfold Memory.write
    split_ifs with h1 h2 h2 h3
    · subst h2
      exact Memory.read_of_not_listed fun c hc => by
        rcases List.mem_cons.mp hc with rfl | hc
        · exact Nat.ne_of_gt h1
        · have := hk c hc; omega
    · simp [Memory.read]
    · subst h2 h3
      exact Memory.read_of_not_listed fun c hc => Nat.ne_of_gt (hk c hc)
    · simp [Memory.read]
    · simp only [Memory.read, Ne.symm h2, if_false]
      exact ih hm'

/-- The addresses after a write are those before and the written one. -/
theorem Memory.mem_write {m : Memory} {a : Nat} {b : Byte} {c : Host.Cell} (h : c ∈ m.write a b) :
    c ∈ m ∨ c = (a, b) := by
  induction m with
  | nil => unfold Memory.write at h; split at h <;> simp_all
  | cons d m ih =>
    obtain ⟨k, v⟩ := d
    unfold Memory.write at h
    split_ifs at h <;> simp_all only [List.mem_cons] <;> tauto

/-- A write keeps the canonical form. -/
theorem Memory.wf_write {m : Memory} (hm : m.wf = true) (a : Nat) (b : Byte) : (m.write a b).wf = true := by
  induction m with
  | nil =>
    unfold Memory.write
    split
    · rfl
    · simp [Memory.wf_cons, *]
  | cons c m ih =>
    obtain ⟨k, v⟩ := c
    obtain ⟨hv, hk, hm'⟩ := Memory.wf_cons.mp hm
    unfold Memory.write
    split_ifs with h1 h2 h2 h3
    · exact hm
    · refine Memory.wf_cons.mpr ⟨h2, fun c hc => ?_, hm⟩
      rcases List.mem_cons.mp hc with rfl | hc
      · exact h1
      · have := hk c hc; omega
    · exact hm'
    · subst h2; exact Memory.wf_cons.mpr ⟨h3, hk, hm'⟩
    · refine Memory.wf_cons.mpr ⟨hv, fun c hc => ?_, ih hm'⟩
      rcases Memory.mem_write hc with hc | rfl
      · exact hk c hc
      · exact lt_of_le_of_ne (Nat.le_of_not_lt h1) (Ne.symm h2)

/-- The growth copy keeps the canonical form. -/
theorem Memory.wf_below {m : Memory} (hm : m.wf = true) (cap : Nat) : (m.below cap).wf = true := by
  induction m with
  | nil => rfl
  | cons c m ih =>
    obtain ⟨k, v⟩ := c
    obtain ⟨hv, hk, hm'⟩ := Memory.wf_cons.mp hm
    unfold Memory.below at *
    rw [List.filter_cons]
    split
    · exact Memory.wf_cons.mpr ⟨hv, fun c hc => hk c (List.mem_filter.mp hc).1, ih hm'⟩
    · exact ih hm'

theorem Memory.read_below_lt {m : Memory} {cap a : Nat} (h : a < cap) : (m.below cap).read a = m.read a := by
  induction m with
  | nil => rfl
  | cons c m ih =>
    obtain ⟨k, v⟩ := c
    unfold Memory.below at *
    rw [List.filter_cons]
    by_cases hk : k < cap
    · simp only [hk, decide_true, if_true, Memory.read, ih]
    · have : k ≠ a := by omega
      simp only [hk, decide_false, Memory.read, this, if_false, ih, Bool.false_eq_true]

theorem Memory.read_below_ge {m : Memory} {cap a : Nat} (h : cap ≤ a) : (m.below cap).read a = unlisted :=
  Memory.read_of_not_listed fun c hc => by
    have := (List.mem_filter.mp hc).2
    simp only [decide_eq_true_eq] at this
    omega

/-- Below a capacity that covers every cell nothing is dropped. -/
theorem Memory.below_of_lt {m : Memory} {cap : Nat} (h : ∀ c ∈ m, c.1 < cap) : m.below cap = m :=
  List.filter_eq_self.mpr fun c hc => decide_eq_true (h c hc)

@[simp] theorem Memory.readN_length (m : Memory) (addr n : Nat) : (m.readN addr n).length = n := by
  induction n generalizing addr with
  | zero => rfl
  | succ n ih => simp [Memory.readN, ih]

theorem Memory.readN_getElem? (m : Memory) {addr n i : Nat} (h : i < n) :
    (m.readN addr n)[i]? = some (m.read (addr + i)) := by
  induction n generalizing addr i with
  | zero => omega
  | succ n ih =>
    cases i with
    | zero => rfl
    | succ i =>
      simp only [Memory.readN, List.getElem?_cons_succ]
      rw [ih (by omega), Nat.add_right_comm, Nat.add_assoc]

/-- Reading `n` bytes depends on those bytes only. -/
theorem Memory.readN_congr {m m' : Memory} {addr n : Nat} (h : ∀ i, i < n → m.read (addr + i) = m'.read (addr + i)) :
    m.readN addr n = m'.readN addr n := by
  apply List.ext_getElem?
  intro i
  by_cases hi : i < n
  · rw [Memory.readN_getElem? _ hi, Memory.readN_getElem? _ hi, h i hi]
  · rw [List.getElem?_eq_none (by simp; omega), List.getElem?_eq_none (by simp; omega)]

/-- One byte more at the end. -/
theorem Memory.readN_succ (m : Memory) (addr n : Nat) :
    m.readN addr (n + 1) = m.readN addr n ++ [m.read (addr + n)] := by
  induction n generalizing addr with
  | zero => rfl
  | succ n ih =>
    rw [show m.readN addr (n + 1 + 1) = m.read addr :: m.readN (addr + 1) (n + 1) from rfl, ih, Nat.add_right_comm]
    rfl

/-- Equal reads make equal canonical lists. -/
theorem Memory.ext {m m' : Memory} (hm : m.wf = true) (hm' : m'.wf = true) (h : ∀ a, m.read a = m'.read a) :
    m = m' := by
  induction m generalizing m' with
  | nil =>
    cases m' with
    | nil => rfl
    | cons d m' =>
      obtain ⟨k, v⟩ := d
      have := h k
      simp [Memory.read] at this
      exact absurd this.symm (Memory.wf_cons.mp hm').1
  | cons c m ih =>
    obtain ⟨k, v⟩ := c
    obtain ⟨hv, hk, hw⟩ := Memory.wf_cons.mp hm
    cases m' with
    | nil =>
      have := h k
      simp [Memory.read] at this
      exact absurd this hv
    | cons d m' =>
      obtain ⟨k', v'⟩ := d
      obtain ⟨hv', hk', hw'⟩ := Memory.wf_cons.mp hm'
      have hkk : k = k' := by
        rcases Nat.lt_trichotomy k k' with hlt | heq | hgt
        · have h1 := h k
          rw [Memory.read, if_pos rfl, Memory.read_of_not_listed] at h1
          · exact absurd h1 hv
          · intro c hc
            rcases List.mem_cons.mp hc with rfl | hc
            · exact Nat.ne_of_gt hlt
            · have := hk' c hc; omega
        · exact heq
        · have h1 := h k'
          rw [Memory.read_of_not_listed, Memory.read, if_pos rfl] at h1
          · exact absurd h1.symm hv'
          · intro c hc
            rcases List.mem_cons.mp hc with rfl | hc
            · exact Nat.ne_of_gt hgt
            · have := hk c hc; omega
      subst hkk
      have hvv : v = v' := by have := h k; simpa [Memory.read] using this
      subst hvv
      congr 1
      refine ih hw hw' fun a => ?_
      by_cases ha : k = a
      · subst ha
        rw [Memory.read_of_not_listed fun c hc => Nat.ne_of_gt (hk c hc),
          Memory.read_of_not_listed fun c hc => Nat.ne_of_gt (hk' c hc)]
      · have := h a
        simpa [Memory.read, ha] using this

end Sys2Proof.Machine
end

