-- ==== Sys2Proof/Laws/State.lean ====
section
/-! SUPPORT. Each field after each named update of the state. -/

namespace Sys2Proof.Machine

variable (s : State)

@[simp] theorem State.emit_rxMsize (e : Event) : (s.emit e).rxMsize = s.rxMsize := rfl
@[simp] theorem State.emit_rxBidx (e : Event) : (s.emit e).rxBidx = s.rxBidx := rfl
@[simp] theorem State.emit_rxCap (e : Event) : (s.emit e).rxCap = s.rxCap := rfl
@[simp] theorem State.emit_rxBuf (e : Event) : (s.emit e).rxBuf = s.rxBuf := rfl
@[simp] theorem State.emit_cfgAlen (e : Event) : (s.emit e).cfgAlen = s.cfgAlen := rfl
@[simp] theorem State.emit_cfgAfac (e : Event) : (s.emit e).cfgAfac = s.cfgAfac := rfl
@[simp] theorem State.emit_cfgLogen (e : Event) : (s.emit e).cfgLogen = s.cfgLogen := rfl
@[simp] theorem State.emit_genSet (e : Event) : (s.emit e).genSet = s.genSet := rfl
@[simp] theorem State.emit_errcbSet (e : Event) : (s.emit e).errcbSet = s.errcbSet := rfl
@[simp] theorem State.emit_tblCap (e : Event) : (s.emit e).tblCap = s.tblCap := rfl
@[simp] theorem State.emit_tbl (e : Event) : (s.emit e).tbl = s.tbl := rfl
@[simp] theorem State.emit_bi (e : Event) : (s.emit e).bi = s.bi := rfl
@[simp] theorem State.emit_build (e : Event) : (s.emit e).build = s.build := rfl
@[simp] theorem State.emit_hostIn (e : Event) : (s.emit e).hostIn = s.hostIn := rfl
@[simp] theorem State.emit_hostCalls (e : Event) : (s.emit e).hostCalls = s.hostCalls := rfl
@[simp] theorem State.emit_events (e : Event) : (s.emit e).events = s.events ++ [e] := rfl
@[simp] theorem State.emit_ret (e : Event) : (s.emit e).ret = s.ret := rfl

@[simp] theorem State.answer_rxMsize (v : Value) : (s.answer v).rxMsize = s.rxMsize := rfl
@[simp] theorem State.answer_rxBidx (v : Value) : (s.answer v).rxBidx = s.rxBidx := rfl
@[simp] theorem State.answer_rxCap (v : Value) : (s.answer v).rxCap = s.rxCap := rfl
@[simp] theorem State.answer_rxBuf (v : Value) : (s.answer v).rxBuf = s.rxBuf := rfl
@[simp] theorem State.answer_cfgAlen (v : Value) : (s.answer v).cfgAlen = s.cfgAlen := rfl
@[simp] theorem State.answer_cfgAfac (v : Value) : (s.answer v).cfgAfac = s.cfgAfac := rfl
@[simp] theorem State.answer_cfgLogen (v : Value) : (s.answer v).cfgLogen = s.cfgLogen := rfl
@[simp] theorem State.answer_genSet (v : Value) : (s.answer v).genSet = s.genSet := rfl
@[simp] theorem State.answer_errcbSet (v : Value) : (s.answer v).errcbSet = s.errcbSet := rfl
@[simp] theorem State.answer_tblCap (v : Value) : (s.answer v).tblCap = s.tblCap := rfl
@[simp] theorem State.answer_tbl (v : Value) : (s.answer v).tbl = s.tbl := rfl
@[simp] theorem State.answer_bi (v : Value) : (s.answer v).bi = s.bi := rfl
@[simp] theorem State.answer_build (v : Value) : (s.answer v).build = s.build := rfl
@[simp] theorem State.answer_hostIn (v : Value) : (s.answer v).hostIn = s.hostIn := rfl
@[simp] theorem State.answer_hostCalls (v : Value) : (s.answer v).hostCalls = s.hostCalls := rfl
@[simp] theorem State.answer_events (v : Value) : (s.answer v).events = s.events := rfl
@[simp] theorem State.answer_ret (v : Value) : (s.answer v).ret = some v := rfl

@[simp] theorem State.clear_rxMsize : s.clear.rxMsize = 0 := rfl
@[simp] theorem State.clear_rxBidx : s.clear.rxBidx = 0 := rfl
@[simp] theorem State.clear_rxCap : s.clear.rxCap = s.rxCap := rfl
@[simp] theorem State.clear_rxBuf : s.clear.rxBuf = [] := rfl
@[simp] theorem State.clear_cfgAlen : s.clear.cfgAlen = s.cfgAlen := rfl
@[simp] theorem State.clear_cfgAfac : s.clear.cfgAfac = s.cfgAfac := rfl
@[simp] theorem State.clear_cfgLogen : s.clear.cfgLogen = s.cfgLogen := rfl
@[simp] theorem State.clear_genSet : s.clear.genSet = s.genSet := rfl
@[simp] theorem State.clear_errcbSet : s.clear.errcbSet = s.errcbSet := rfl
@[simp] theorem State.clear_tblCap : s.clear.tblCap = s.tblCap := rfl
@[simp] theorem State.clear_tbl : s.clear.tbl = s.tbl := rfl
@[simp] theorem State.clear_bi : s.clear.bi = s.bi := rfl
@[simp] theorem State.clear_build : s.clear.build = s.build := rfl
@[simp] theorem State.clear_hostIn : s.clear.hostIn = s.hostIn := rfl
@[simp] theorem State.clear_hostCalls : s.clear.hostCalls = s.hostCalls := rfl
@[simp] theorem State.clear_events : s.clear.events = s.events := rfl
@[simp] theorem State.clear_ret : s.clear.ret = s.ret := rfl

@[simp] theorem State.latch_rxMsize (b : Byte) : (s.latch b).rxMsize = b := rfl
@[simp] theorem State.latch_rxBidx (b : Byte) : (s.latch b).rxBidx = s.rxBidx := rfl
@[simp] theorem State.latch_rxCap (b : Byte) : (s.latch b).rxCap = s.rxCap := rfl
@[simp] theorem State.latch_rxBuf (b : Byte) : (s.latch b).rxBuf = s.rxBuf := rfl
@[simp] theorem State.latch_cfgAlen (b : Byte) : (s.latch b).cfgAlen = s.cfgAlen := rfl
@[simp] theorem State.latch_cfgAfac (b : Byte) : (s.latch b).cfgAfac = s.cfgAfac := rfl
@[simp] theorem State.latch_cfgLogen (b : Byte) : (s.latch b).cfgLogen = s.cfgLogen := rfl
@[simp] theorem State.latch_genSet (b : Byte) : (s.latch b).genSet = s.genSet := rfl
@[simp] theorem State.latch_errcbSet (b : Byte) : (s.latch b).errcbSet = s.errcbSet := rfl
@[simp] theorem State.latch_tblCap (b : Byte) : (s.latch b).tblCap = s.tblCap := rfl
@[simp] theorem State.latch_tbl (b : Byte) : (s.latch b).tbl = s.tbl := rfl
@[simp] theorem State.latch_bi (b : Byte) : (s.latch b).bi = s.bi := rfl
@[simp] theorem State.latch_build (b : Byte) : (s.latch b).build = s.build := rfl
@[simp] theorem State.latch_hostIn (b : Byte) : (s.latch b).hostIn = s.hostIn := rfl
@[simp] theorem State.latch_hostCalls (b : Byte) : (s.latch b).hostCalls = s.hostCalls := rfl
@[simp] theorem State.latch_events (b : Byte) : (s.latch b).events = s.events := rfl
@[simp] theorem State.latch_ret (b : Byte) : (s.latch b).ret = s.ret := rfl

@[simp] theorem State.enlarge_rxMsize : s.enlarge.rxMsize = s.rxMsize := rfl
@[simp] theorem State.enlarge_rxBidx : s.enlarge.rxBidx = s.rxBidx := rfl
@[simp] theorem State.enlarge_rxCap : s.enlarge.rxCap = Config.bufGrowFactor * s.rxCap := rfl
@[simp] theorem State.enlarge_rxBuf : s.enlarge.rxBuf = s.rxBuf.below s.rxCap := rfl
@[simp] theorem State.enlarge_cfgAlen : s.enlarge.cfgAlen = s.cfgAlen := rfl
@[simp] theorem State.enlarge_cfgAfac : s.enlarge.cfgAfac = s.cfgAfac := rfl
@[simp] theorem State.enlarge_cfgLogen : s.enlarge.cfgLogen = s.cfgLogen := rfl
@[simp] theorem State.enlarge_genSet : s.enlarge.genSet = s.genSet := rfl
@[simp] theorem State.enlarge_errcbSet : s.enlarge.errcbSet = s.errcbSet := rfl
@[simp] theorem State.enlarge_tblCap : s.enlarge.tblCap = s.tblCap := rfl
@[simp] theorem State.enlarge_tbl : s.enlarge.tbl = s.tbl := rfl
@[simp] theorem State.enlarge_bi : s.enlarge.bi = s.bi := rfl
@[simp] theorem State.enlarge_build : s.enlarge.build = s.build := rfl
@[simp] theorem State.enlarge_hostIn : s.enlarge.hostIn = s.hostIn := rfl
@[simp] theorem State.enlarge_hostCalls : s.enlarge.hostCalls = s.hostCalls := rfl
@[simp] theorem State.enlarge_events : s.enlarge.events = s.events := rfl
@[simp] theorem State.enlarge_ret : s.enlarge.ret = s.ret := rfl

@[simp] theorem State.store_rxMsize (b : Byte) : (s.store b).rxMsize = s.rxMsize := rfl
@[simp] theorem State.store_rxBidx (b : Byte) : (s.store b).rxBidx = s.rxBidx + 1 := rfl
@[simp] theorem State.store_rxCap (b : Byte) : (s.store b).rxCap = s.rxCap := rfl
@[simp] theorem State.store_rxBuf (b : Byte) : (s.store b).rxBuf = s.rxBuf.write s.rxBidx b := rfl
@[simp] theorem State.store_cfgAlen (b : Byte) : (s.store b).cfgAlen = s.cfgAlen := rfl
@[simp] theorem State.store_cfgAfac (b : Byte) : (s.store b).cfgAfac = s.cfgAfac := rfl
@[simp] theorem State.store_cfgLogen (b : Byte) : (s.store b).cfgLogen = s.cfgLogen := rfl
@[simp] theorem State.store_genSet (b : Byte) : (s.store b).genSet = s.genSet := rfl
@[simp] theorem State.store_errcbSet (b : Byte) : (s.store b).errcbSet = s.errcbSet := rfl
@[simp] theorem State.store_tblCap (b : Byte) : (s.store b).tblCap = s.tblCap := rfl
@[simp] theorem State.store_tbl (b : Byte) : (s.store b).tbl = s.tbl := rfl
@[simp] theorem State.store_bi (b : Byte) : (s.store b).bi = s.bi := rfl
@[simp] theorem State.store_build (b : Byte) : (s.store b).build = s.build := rfl
@[simp] theorem State.store_hostIn (b : Byte) : (s.store b).hostIn = s.hostIn := rfl
@[simp] theorem State.store_hostCalls (b : Byte) : (s.store b).hostCalls = s.hostCalls := rfl
@[simp] theorem State.store_events (b : Byte) : (s.store b).events = s.events := rfl
@[simp] theorem State.store_ret (b : Byte) : (s.store b).ret = s.ret := rfl

@[simp] theorem State.setAlen_rxMsize (v : Byte) : (s.setAlen v).rxMsize = s.rxMsize := rfl
@[simp] theorem State.setAlen_rxBidx (v : Byte) : (s.setAlen v).rxBidx = s.rxBidx := rfl
@[simp] theorem State.setAlen_rxCap (v : Byte) : (s.setAlen v).rxCap = s.rxCap := rfl
@[simp] theorem State.setAlen_rxBuf (v : Byte) : (s.setAlen v).rxBuf = s.rxBuf := rfl
@[simp] theorem State.setAlen_cfgAlen (v : Byte) : (s.setAlen v).cfgAlen = v := rfl
@[simp] theorem State.setAlen_cfgAfac (v : Byte) : (s.setAlen v).cfgAfac = s.cfgAfac := rfl
@[simp] theorem State.setAlen_cfgLogen (v : Byte) : (s.setAlen v).cfgLogen = s.cfgLogen := rfl
@[simp] theorem State.setAlen_genSet (v : Byte) : (s.setAlen v).genSet = s.genSet := rfl
@[simp] theorem State.setAlen_errcbSet (v : Byte) : (s.setAlen v).errcbSet = s.errcbSet := rfl
@[simp] theorem State.setAlen_tblCap (v : Byte) : (s.setAlen v).tblCap = s.tblCap := rfl
@[simp] theorem State.setAlen_tbl (v : Byte) : (s.setAlen v).tbl = s.tbl := rfl
@[simp] theorem State.setAlen_bi (v : Byte) : (s.setAlen v).bi = s.bi := rfl
@[simp] theorem State.setAlen_build (v : Byte) : (s.setAlen v).build = s.build := rfl
@[simp] theorem State.setAlen_hostIn (v : Byte) : (s.setAlen v).hostIn = s.hostIn := rfl
@[simp] theorem State.setAlen_hostCalls (v : Byte) : (s.setAlen v).hostCalls = s.hostCalls := rfl
@[simp] theorem State.setAlen_events (v : Byte) : (s.setAlen v).events = s.events := rfl
@[simp] theorem State.setAlen_ret (v : Byte) : (s.setAlen v).ret = s.ret := rfl

@[simp] theorem State.setAfac_rxMsize (v : Byte) : (s.setAfac v).rxMsize = s.rxMsize := rfl
@[simp] theorem State.setAfac_rxBidx (v : Byte) : (s.setAfac v).rxBidx = s.rxBidx := rfl
@[simp] theorem State.setAfac_rxCap (v : Byte) : (s.setAfac v).rxCap = s.rxCap := rfl
@[simp] theorem State.setAfac_rxBuf (v : Byte) : (s.setAfac v).rxBuf = s.rxBuf := rfl
@[simp] theorem State.setAfac_cfgAlen (v : Byte) : (s.setAfac v).cfgAlen = s.cfgAlen := rfl
@[simp] theorem State.setAfac_cfgAfac (v : Byte) : (s.setAfac v).cfgAfac = v := rfl
@[simp] theorem State.setAfac_cfgLogen (v : Byte) : (s.setAfac v).cfgLogen = s.cfgLogen := rfl
@[simp] theorem State.setAfac_genSet (v : Byte) : (s.setAfac v).genSet = s.genSet := rfl
@[simp] theorem State.setAfac_errcbSet (v : Byte) : (s.setAfac v).errcbSet = s.errcbSet := rfl
@[simp] theorem State.setAfac_tblCap (v : Byte) : (s.setAfac v).tblCap = s.tblCap := rfl
@[simp] theorem State.setAfac_tbl (v : Byte) : (s.setAfac v).tbl = s.tbl := rfl
@[simp] theorem State.setAfac_bi (v : Byte) : (s.setAfac v).bi = s.bi := rfl
@[simp] theorem State.setAfac_build (v : Byte) : (s.setAfac v).build = s.build := rfl
@[simp] theorem State.setAfac_hostIn (v : Byte) : (s.setAfac v).hostIn = s.hostIn := rfl
@[simp] theorem State.setAfac_hostCalls (v : Byte) : (s.setAfac v).hostCalls = s.hostCalls := rfl
@[simp] theorem State.setAfac_events (v : Byte) : (s.setAfac v).events = s.events := rfl
@[simp] theorem State.setAfac_ret (v : Byte) : (s.setAfac v).ret = s.ret := rfl

@[simp] theorem State.setLogen_rxMsize (b : Bool) : (s.setLogen b).rxMsize = s.rxMsize := rfl
@[simp] theorem State.setLogen_rxBidx (b : Bool) : (s.setLogen b).rxBidx = s.rxBidx := rfl
@[simp] theorem State.setLogen_rxCap (b : Bool) : (s.setLogen b).rxCap = s.rxCap := rfl
@[simp] theorem State.setLogen_rxBuf (b : Bool) : (s.setLogen b).rxBuf = s.rxBuf := rfl
@[simp] theorem State.setLogen_cfgAlen (b : Bool) : (s.setLogen b).cfgAlen = s.cfgAlen := rfl
@[simp] theorem State.setLogen_cfgAfac (b : Bool) : (s.setLogen b).cfgAfac = s.cfgAfac := rfl
@[simp] theorem State.setLogen_cfgLogen (b : Bool) : (s.setLogen b).cfgLogen = b := rfl
@[simp] theorem State.setLogen_genSet (b : Bool) : (s.setLogen b).genSet = s.genSet := rfl
@[simp] theorem State.setLogen_errcbSet (b : Bool) : (s.setLogen b).errcbSet = s.errcbSet := rfl
@[simp] theorem State.setLogen_tblCap (b : Bool) : (s.setLogen b).tblCap = s.tblCap := rfl
@[simp] theorem State.setLogen_tbl (b : Bool) : (s.setLogen b).tbl = s.tbl := rfl
@[simp] theorem State.setLogen_bi (b : Bool) : (s.setLogen b).bi = s.bi := rfl
@[simp] theorem State.setLogen_build (b : Bool) : (s.setLogen b).build = s.build := rfl
@[simp] theorem State.setLogen_hostIn (b : Bool) : (s.setLogen b).hostIn = s.hostIn := rfl
@[simp] theorem State.setLogen_hostCalls (b : Bool) : (s.setLogen b).hostCalls = s.hostCalls := rfl
@[simp] theorem State.setLogen_events (b : Bool) : (s.setLogen b).events = s.events := rfl
@[simp] theorem State.setLogen_ret (b : Bool) : (s.setLogen b).ret = s.ret := rfl

@[simp] theorem State.setGen_rxMsize (on : Bool) : (s.setGen on).rxMsize = s.rxMsize := rfl
@[simp] theorem State.setGen_rxBidx (on : Bool) : (s.setGen on).rxBidx = s.rxBidx := rfl
@[simp] theorem State.setGen_rxCap (on : Bool) : (s.setGen on).rxCap = s.rxCap := rfl
@[simp] theorem State.setGen_rxBuf (on : Bool) : (s.setGen on).rxBuf = s.rxBuf := rfl
@[simp] theorem State.setGen_cfgAlen (on : Bool) : (s.setGen on).cfgAlen = s.cfgAlen := rfl
@[simp] theorem State.setGen_cfgAfac (on : Bool) : (s.setGen on).cfgAfac = s.cfgAfac := rfl
@[simp] theorem State.setGen_cfgLogen (on : Bool) : (s.setGen on).cfgLogen = s.cfgLogen := rfl
@[simp] theorem State.setGen_genSet (on : Bool) : (s.setGen on).genSet = on := rfl
@[simp] theorem State.setGen_errcbSet (on : Bool) : (s.setGen on).errcbSet = s.errcbSet := rfl
@[simp] theorem State.setGen_tblCap (on : Bool) : (s.setGen on).tblCap = s.tblCap := rfl
@[simp] theorem State.setGen_tbl (on : Bool) : (s.setGen on).tbl = s.tbl := rfl
@[simp] theorem State.setGen_bi (on : Bool) : (s.setGen on).bi = s.bi := rfl
@[simp] theorem State.setGen_build (on : Bool) : (s.setGen on).build = s.build := rfl
@[simp] theorem State.setGen_hostIn (on : Bool) : (s.setGen on).hostIn = s.hostIn := rfl
@[simp] theorem State.setGen_hostCalls (on : Bool) : (s.setGen on).hostCalls = s.hostCalls := rfl
@[simp] theorem State.setGen_events (on : Bool) : (s.setGen on).events = s.events := rfl
@[simp] theorem State.setGen_ret (on : Bool) : (s.setGen on).ret = s.ret := rfl

@[simp] theorem State.setErr_rxMsize : s.setErr.rxMsize = s.rxMsize := rfl
@[simp] theorem State.setErr_rxBidx : s.setErr.rxBidx = s.rxBidx := rfl
@[simp] theorem State.setErr_rxCap : s.setErr.rxCap = s.rxCap := rfl
@[simp] theorem State.setErr_rxBuf : s.setErr.rxBuf = s.rxBuf := rfl
@[simp] theorem State.setErr_cfgAlen : s.setErr.cfgAlen = s.cfgAlen := rfl
@[simp] theorem State.setErr_cfgAfac : s.setErr.cfgAfac = s.cfgAfac := rfl
@[simp] theorem State.setErr_cfgLogen : s.setErr.cfgLogen = s.cfgLogen := rfl
@[simp] theorem State.setErr_genSet : s.setErr.genSet = s.genSet := rfl
@[simp] theorem State.setErr_errcbSet : s.setErr.errcbSet = true := rfl
@[simp] theorem State.setErr_tblCap : s.setErr.tblCap = s.tblCap := rfl
@[simp] theorem State.setErr_tbl : s.setErr.tbl = s.tbl := rfl
@[simp] theorem State.setErr_bi : s.setErr.bi = s.bi := rfl
@[simp] theorem State.setErr_build : s.setErr.build = s.build := rfl
@[simp] theorem State.setErr_hostIn : s.setErr.hostIn = s.hostIn := rfl
@[simp] theorem State.setErr_hostCalls : s.setErr.hostCalls = s.hostCalls := rfl
@[simp] theorem State.setErr_events : s.setErr.events = s.events := rfl
@[simp] theorem State.setErr_ret : s.setErr.ret = s.ret := rfl

@[simp] theorem State.growTable_rxMsize (a : Nat) : (s.growTable a).rxMsize = s.rxMsize := rfl
@[simp] theorem State.growTable_rxBidx (a : Nat) : (s.growTable a).rxBidx = s.rxBidx := rfl
@[simp] theorem State.growTable_rxCap (a : Nat) : (s.growTable a).rxCap = s.rxCap := rfl
@[simp] theorem State.growTable_rxBuf (a : Nat) : (s.growTable a).rxBuf = s.rxBuf := rfl
@[simp] theorem State.growTable_cfgAlen (a : Nat) : (s.growTable a).cfgAlen = s.cfgAlen := rfl
@[simp] theorem State.growTable_cfgAfac (a : Nat) : (s.growTable a).cfgAfac = s.cfgAfac := rfl
@[simp] theorem State.growTable_cfgLogen (a : Nat) : (s.growTable a).cfgLogen = s.cfgLogen := rfl
@[simp] theorem State.growTable_genSet (a : Nat) : (s.growTable a).genSet = s.genSet := rfl
@[simp] theorem State.growTable_errcbSet (a : Nat) : (s.growTable a).errcbSet = s.errcbSet := rfl
@[simp] theorem State.growTable_tblCap (a : Nat) : (s.growTable a).tblCap = a + Config.tblGrowMargin := rfl
@[simp] theorem State.growTable_tbl (a : Nat) : (s.growTable a).tbl = s.tbl.filter fun k => decide (k < s.tblCap) := rfl
@[simp] theorem State.growTable_bi (a : Nat) : (s.growTable a).bi = s.bi := rfl
@[simp] theorem State.growTable_build (a : Nat) : (s.growTable a).build = s.build := rfl
@[simp] theorem State.growTable_hostIn (a : Nat) : (s.growTable a).hostIn = s.hostIn := rfl
@[simp] theorem State.growTable_hostCalls (a : Nat) : (s.growTable a).hostCalls = s.hostCalls := rfl
@[simp] theorem State.growTable_events (a : Nat) : (s.growTable a).events = s.events := rfl
@[simp] theorem State.growTable_ret (a : Nat) : (s.growTable a).ret = s.ret := rfl

@[simp] theorem State.occupy_rxMsize (a : Nat) : (s.occupy a).rxMsize = s.rxMsize := rfl
@[simp] theorem State.occupy_rxBidx (a : Nat) : (s.occupy a).rxBidx = s.rxBidx := rfl
@[simp] theorem State.occupy_rxCap (a : Nat) : (s.occupy a).rxCap = s.rxCap := rfl
@[simp] theorem State.occupy_rxBuf (a : Nat) : (s.occupy a).rxBuf = s.rxBuf := rfl
@[simp] theorem State.occupy_cfgAlen (a : Nat) : (s.occupy a).cfgAlen = s.cfgAlen := rfl
@[simp] theorem State.occupy_cfgAfac (a : Nat) : (s.occupy a).cfgAfac = s.cfgAfac := rfl
@[simp] theorem State.occupy_cfgLogen (a : Nat) : (s.occupy a).cfgLogen = s.cfgLogen := rfl
@[simp] theorem State.occupy_genSet (a : Nat) : (s.occupy a).genSet = s.genSet := rfl
@[simp] theorem State.occupy_errcbSet (a : Nat) : (s.occupy a).errcbSet = s.errcbSet := rfl
@[simp] theorem State.occupy_tblCap (a : Nat) : (s.occupy a).tblCap = s.tblCap := rfl
@[simp] theorem State.occupy_tbl (a : Nat) : (s.occupy a).tbl = insertSlot a s.tbl := rfl
@[simp] theorem State.occupy_bi (a : Nat) : (s.occupy a).bi = s.bi := rfl
@[simp] theorem State.occupy_build (a : Nat) : (s.occupy a).build = s.build := rfl
@[simp] theorem State.occupy_hostIn (a : Nat) : (s.occupy a).hostIn = s.hostIn := rfl
@[simp] theorem State.occupy_hostCalls (a : Nat) : (s.occupy a).hostCalls = s.hostCalls := rfl
@[simp] theorem State.occupy_events (a : Nat) : (s.occupy a).events = s.events := rfl
@[simp] theorem State.occupy_ret (a : Nat) : (s.occupy a).ret = s.ret := rfl

@[simp] theorem State.resetAll_rxMsize : s.resetAll.rxMsize = 0 := rfl
@[simp] theorem State.resetAll_rxBidx : s.resetAll.rxBidx = 0 := rfl
@[simp] theorem State.resetAll_rxCap : s.resetAll.rxCap = Config.bufCapInit := rfl
@[simp] theorem State.resetAll_rxBuf : s.resetAll.rxBuf = [] := rfl
@[simp] theorem State.resetAll_cfgAlen : s.resetAll.cfgAlen = Config.alenDefault := rfl
@[simp] theorem State.resetAll_cfgAfac : s.resetAll.cfgAfac = Config.afacDefault := rfl
@[simp] theorem State.resetAll_cfgLogen : s.resetAll.cfgLogen = Config.logenReset := rfl
@[simp] theorem State.resetAll_genSet : s.resetAll.genSet = false := rfl
@[simp] theorem State.resetAll_errcbSet : s.resetAll.errcbSet = false := rfl
@[simp] theorem State.resetAll_tblCap : s.resetAll.tblCap = s.build.tblCapInit := rfl
@[simp] theorem State.resetAll_tbl : s.resetAll.tbl = [] := rfl
@[simp] theorem State.resetAll_bi : s.resetAll.bi = Vector.replicate 10 true := rfl
@[simp] theorem State.resetAll_build : s.resetAll.build = s.build := rfl
@[simp] theorem State.resetAll_hostIn : s.resetAll.hostIn = s.hostIn := rfl
@[simp] theorem State.resetAll_hostCalls : s.resetAll.hostCalls = s.hostCalls := rfl
@[simp] theorem State.resetAll_events : s.resetAll.events = s.events := rfl
@[simp] theorem State.resetAll_ret : s.resetAll.ret = s.ret := rfl

@[simp] theorem State.registerSlot_rxMsize (a : Nat) : (s.registerSlot a).rxMsize = s.rxMsize := by
  unfold State.registerSlot; split <;> rfl
@[simp] theorem State.registerSlot_rxBidx (a : Nat) : (s.registerSlot a).rxBidx = s.rxBidx := by
  unfold State.registerSlot; split <;> rfl
@[simp] theorem State.registerSlot_rxCap (a : Nat) : (s.registerSlot a).rxCap = s.rxCap := by
  unfold State.registerSlot; split <;> rfl
@[simp] theorem State.registerSlot_rxBuf (a : Nat) : (s.registerSlot a).rxBuf = s.rxBuf := by
  unfold State.registerSlot; split <;> rfl
@[simp] theorem State.registerSlot_cfgAlen (a : Nat) : (s.registerSlot a).cfgAlen = s.cfgAlen := by
  unfold State.registerSlot; split <;> rfl
@[simp] theorem State.registerSlot_cfgAfac (a : Nat) : (s.registerSlot a).cfgAfac = s.cfgAfac := by
  unfold State.registerSlot; split <;> rfl
@[simp] theorem State.registerSlot_cfgLogen (a : Nat) : (s.registerSlot a).cfgLogen = s.cfgLogen := by
  unfold State.registerSlot; split <;> rfl
@[simp] theorem State.registerSlot_genSet (a : Nat) : (s.registerSlot a).genSet = s.genSet := by
  unfold State.registerSlot; split <;> rfl
@[simp] theorem State.registerSlot_errcbSet (a : Nat) : (s.registerSlot a).errcbSet = s.errcbSet := by
  unfold State.registerSlot; split <;> rfl
@[simp] theorem State.registerSlot_bi (a : Nat) : (s.registerSlot a).bi = s.bi := by
  unfold State.registerSlot; split <;> rfl
@[simp] theorem State.registerSlot_build (a : Nat) : (s.registerSlot a).build = s.build := by
  unfold State.registerSlot; split <;> rfl
@[simp] theorem State.registerSlot_hostIn (a : Nat) : (s.registerSlot a).hostIn = s.hostIn := by
  unfold State.registerSlot; split <;> rfl
@[simp] theorem State.registerSlot_hostCalls (a : Nat) : (s.registerSlot a).hostCalls = s.hostCalls := by
  unfold State.registerSlot; split <;> rfl
@[simp] theorem State.registerSlot_events (a : Nat) : (s.registerSlot a).events = s.events := by
  unfold State.registerSlot; split <;> rfl
@[simp] theorem State.registerSlot_ret (a : Nat) : (s.registerSlot a).ret = s.ret := by
  unfold State.registerSlot; split <;> rfl

end Sys2Proof.Machine
end

