-- ==== Sys2Proof/Laws/Ops.lean ====
section
/-! SUPPORT. For each shared operation, once, everything it can do when it answers a next state; and what it answers
where its conditions hold. -/

namespace Sys2Proof.Machine

/-! ## Sequencing -/

@[simp] theorem andThen_next (s : State) (f : State → Out) : andThen (.next s) f = f s := rfl
@[simp] theorem andThen_fault (r : Fault) (f : State → Out) : andThen (.fault r) f = .fault r := rfl
@[simp] theorem andThen_refused (r : Refusal) (f : State → Out) : andThen (.refused r) f = .refused r := rfl

theorem andThen_eq_next {x : Out} {f : State → Out} {t : State} (h : andThen x f = .next t) :
    ∃ u, x = .next u ∧ f u = .next t := by
  cases x with
  | next u => exact ⟨u, rfl, h⟩
  | fault r => simp at h
  | refused r => simp at h

/-! ## The derived conditions (10_state.md R32) -/

theorem userSlot_iff {s : State} {a : Nat} : s.userSlot a = true ↔ a < s.tblCap ∧ a ∈ s.tbl := by
  simp [State.userSlot]

theorem builtinSlot_iff {s : State} {a : Nat} : s.builtinSlot a = true ↔ a < 10 ∧ s.bi[a]? = some true := by
  unfold State.builtinSlot Config.builtinCount
  cases h : s.bi[a]? <;> simp

theorem lenKnown_iff {s : State} : s.lenKnown = true ↔ s.rxMsize ≠ 0 := bne_iff_ne

theorem complete_iff {s : State} : s.complete = true ↔ s.rxBidx = s.rxMsize.toNat := beq_iff_eq

theorem bufFull_iff {s : State} : s.bufFull = true ↔ s.rxBidx = s.rxCap := beq_iff_eq

/-! ## The receive buffer -/

theorem memRead_of_le {addr n : Nat} {s : State} (h : addr + n ≤ s.rxCap) (k : List Byte → Out) :
    memRead addr n s k = k (s.rxBuf.readN addr n) := if_pos h

theorem memRead_eq_next {addr n : Nat} {s t : State} {k : List Byte → Out} (h : memRead addr n s k = .next t) :
    addr + n ≤ s.rxCap ∧ k (s.rxBuf.readN addr n) = .next t := by
  unfold memRead at h
  split at h
  · exact ⟨‹_›, h⟩
  · cases h

theorem bufGrow_eq_next {s t : State} (h : bufGrow s = .next t) :
    capAllowed s.build (Config.bufGrowFactor * s.rxCap) = true ∧ t = s.enlarge := by
  unfold bufGrow at h
  split at h
  · cases h; exact ⟨‹_›, rfl⟩
  · cases h

theorem storeNext_eq_next {b : Byte} {s t : State} (h : storeNext b s = .next t) :
    s.rxBidx + 1 ≤ s.rxCap ∧ t = s.store b := by
  unfold storeNext at h
  split at h
  · cases h; exact ⟨‹_›, rfl⟩
  · cases h

/-- An append that answers a next state stored into free room, or grew by an allowed capacity first. -/
theorem bufAppend_eq_next {b : Byte} {s t : State} (h : bufAppend b s = .next t) :
    (s.rxBidx < s.rxCap ∧ t = s.store b) ∨
    (s.rxBidx = s.rxCap ∧ 0 < s.rxCap ∧ capAllowed s.build (Config.bufGrowFactor * s.rxCap) = true ∧
      t = s.enlarge.store b) := by
  obtain ⟨u, hu, ht⟩ := andThen_eq_next h
  obtain ⟨hroom, rfl⟩ := storeNext_eq_next ht
  by_cases hf : s.bufFull = true
  · rw [if_pos hf] at hu
    obtain ⟨hc, rfl⟩ := bufGrow_eq_next hu
    simp only [State.bufFull, beq_iff_eq] at hf
    simp only [State.enlarge_rxBidx, State.enlarge_rxCap, Config.bufGrowFactor] at hroom
    exact .inr ⟨hf, by omega, hc, rfl⟩
  · rw [if_neg hf] at hu
    cases hu
    exact .inl ⟨by omega, rfl⟩

theorem bufAppend_of_room {b : Byte} {s : State} (h : s.rxBidx < s.rxCap) : bufAppend b s = .next (s.store b) := by
  have hf : ¬ s.bufFull = true := fun h' => by have := bufFull_iff.mp h'; omega
  rw [bufAppend, if_neg hf, andThen_next, storeNext, if_pos (by omega)]

theorem bufAppend_of_full {b : Byte} {s : State} (h : s.rxBidx = s.rxCap) (h0 : 0 < s.rxCap)
    (hc : capAllowed s.build (Config.bufGrowFactor * s.rxCap) = true) :
    bufAppend b s = .next (s.enlarge.store b) := by
  have hr : s.enlarge.rxBidx + 1 ≤ s.enlarge.rxCap := by
    simp only [State.enlarge_rxBidx, State.enlarge_rxCap, Config.bufGrowFactor]; omega
  rw [bufAppend, if_pos (bufFull_iff.mpr h), bufGrow, if_pos hc, andThen_next, storeNext, if_pos hr]

/-! ## The codec and the frame writer -/

@[simp] theorem encodeDigits_length (a w f : Nat) : (encodeDigits a w f).length = w := by
  induction w generalizing a with
  | zero => rfl
  | succ w ih => simp [encodeDigits, ih]

/-- Every digit is below the radix (R156). -/
theorem encodeDigits_lt {a w f d : Nat} (hf : 0 < f) (h : d ∈ encodeDigits a w f) : d < f := by
  induction w generalizing a with
  | zero => simp [encodeDigits] at h
  | succ w ih =>
    rw [encodeDigits, List.mem_append] at h
    rcases h with h | h
    · exact ih h
    · rw [List.mem_singleton.mp h]; exact Nat.mod_lt _ hf

@[simp] theorem digitField_length (a w f : Nat) (ds : List Nat) : (digitField a w f ds).length = ds.length := by
  induction ds with
  | nil => rfl
  | cons d ds ih => simp [digitField, ih]

@[simp] theorem encodeField_length (a w f : Nat) : (encodeField a w f).length = w := by
  simp [encodeField]

/-- A digit that a byte holds stands at its index, whatever the other digits (R156). -/
theorem digitField_getElem? {a w f d : Nat} {ds : List Nat} {i : Nat} (h : ds[i]? = some d) (hd : d < 256) :
    (digitField a w f ds)[i]? = some (BitVec.ofNat 8 d) := by
  induction ds generalizing i with
  | nil => simp at h
  | cons x ds ih =>
    cases i with
    | zero => obtain rfl : x = d := by simpa using h
              simp [digitField, digitByte, hd]
    | succ i => simpa [digitField] using ih (by simpa using h)

/-- Where every digit fits a byte, no free value is read. -/
theorem encodeField_of_fits {a w f : Nat} (h : ∀ d ∈ encodeDigits a w f, d < 256) :
    encodeField a w f = digitBytes (encodeDigits a w f) :=
  List.ext_getElem? fun i => by
    rcases hd : (encodeDigits a w f)[i]? with _ | d
    · simp_all [digitBytes, encodeField]
    · rw [encodeField, digitField_getElem? hd (h d (List.mem_of_getElem? hd)), digitBytes, List.getElem?_map, hd]
      rfl

theorem withEncoded_of_pos {a w f : Nat} (h : 0 < f) {s : State} {k : List Byte → Out} :
    withEncoded a w f s k = k (encodeField a w f) := if_neg (by omega)

theorem withEncoded_of_radix {a w f : Nat} (h1 : 0 < f) (h2 : f ≤ 256) (s : State) (k : List Byte → Out) :
    withEncoded a w f s k = k (digitBytes (encodeDigits a w f)) := by
  rw [withEncoded_of_pos h1, encodeField_of_fits fun d hd => by have := encodeDigits_lt h1 hd; omega]

theorem withEncoded_eq_next {a w f : Nat} {s t : State} {k : List Byte → Out}
    (h : withEncoded a w f s k = .next t) : 0 < f ∧ k (encodeField a w f) = .next t := by
  unfold withEncoded at h
  split_ifs at h with h0
  exact ⟨Nat.pos_of_ne_zero h0, h⟩

theorem withDecoded_of_fits {bytes : List Byte} {w f : Nat} {s : State} (hl : w ≤ bytes.length)
    (hf : addrFits s.build (decodeAddress bytes w f) = true) (k : Nat → Out) :
    withDecoded bytes w f s k = k (decodeAddress bytes w f) := by
  rw [withDecoded, if_neg (by omega), if_pos hf]

theorem withDecoded_eq_next {bytes : List Byte} {w f : Nat} {s t : State} {k : Nat → Out}
    (h : withDecoded bytes w f s k = .next t) :
    w ≤ bytes.length ∧ addrFits s.build (decodeAddress bytes w f) = true ∧ k (decodeAddress bytes w f) = .next t := by
  unfold withDecoded at h
  split_ifs at h with h1 h2
  exact ⟨by omega, h2, h⟩

/-- The bytes `WRITE` sends: the frame of R90 for the current configuration. -/
theorem writeFrame_of_bounds {a : Nat} {p : List Byte} {s : State} (hl : s.cfgAlen.toNat + p.length ≤ 255)
    (hf : s.cfgAfac ≠ 0) :
    writeFrame a p s = .next (s.emit (.tx (encodeWire s.cfgAlen.toNat s.cfgAfac.toNat a p))) := by
  have h0 : 0 < s.cfgAfac.toNat := Nat.pos_of_ne_zero fun h => hf (BitVec.eq_of_toNat_eq (by simpa using h))
  have h1 : s.cfgAfac.toNat < 256 := s.cfgAfac.isLt
  rw [writeFrame, if_neg (by omega), withEncoded_of_radix h0 (by omega)]
  rfl

/-- A `WRITE` that answers a next state emitted one `Tx` and changed nothing else (R171). -/
theorem writeFrame_eq_next {a : Nat} {p : List Byte} {s t : State} (h : writeFrame a p s = .next t) :
    s.cfgAlen.toNat + p.length ≤ 255 ∧ s.cfgAfac ≠ 0 ∧
      t = s.emit (.tx (encodeWire s.cfgAlen.toNat s.cfgAfac.toNat a p)) := by
  unfold writeFrame at h
  split_ifs at h with hl
  have hf : s.cfgAfac ≠ 0 := by rintro h0; simpa [h0] using (withEncoded_eq_next h).1
  have hw := writeFrame_of_bounds (a := a) (p := p) (Nat.le_of_not_lt hl) hf
  rw [writeFrame, if_neg hl, h] at hw
  exact ⟨by omega, hf, by injection hw⟩

/-! ## Calls into the host -/

/-- What a handler's or callback's calls can do: emit `Tx` events, nothing else. -/
theorem runHostCalls_eq_next {calls : List HostTx} {s t : State} (h : runHostCalls calls s = .next t) :
    ∃ txs : List (List Byte), t = { s with events := s.events ++ txs.map .tx } := by
  induction calls generalizing s with
  | nil => cases h; exact ⟨[], by simp⟩
  | cons c calls ih =>
    cases c with
    | write a p =>
      obtain ⟨u, hu, ht⟩ := andThen_eq_next (h : andThen (writeFrame a p s) (runHostCalls calls) = .next t)
      obtain ⟨-, -, rfl⟩ := writeFrame_eq_next hu
      obtain ⟨txs, rfl⟩ := ih ht
      exact ⟨_ :: txs, by simp [State.emit]; rfl⟩
    | feed b => cases h
    | register a => cases h
    | setGeneric on => cases h
    | setErrcb => cases h
    | reset => cases h

/-- A host call uses up one entry of `hostCalls` and can emit `Tx` events, nothing else. -/
theorem callHost_eq_next {s t : State} (h : callHost s = .next t) :
    ∃ txs : List (List Byte), t = { s with hostCalls := s.hostCalls.tail, events := s.events ++ txs.map .tx } := by
  unfold callHost at h
  split at h
  · rename_i hc
    cases h
    exact ⟨[], by cases s; simp_all⟩
  · rename_i calls later hc
    obtain ⟨txs, rfl⟩ := runHostCalls_eq_next h
    exact ⟨txs, by simp [hc]⟩

/-- The writes at the head of a plan: their `Tx` events in order, then what follows them in the plan (R284). -/
theorem runHostCalls_of_writes {writes : List (Nat × List Byte)} (rest : List HostTx) {s : State}
    (h : InBounds s writes) :
    runHostCalls (planOf writes ++ rest) s =
      runHostCalls rest { s with events := s.events ++ writeEvents s writes } := by
  induction writes generalizing s with
  | nil => simp [planOf, writeEvents]
  | cons w writes ih =>
    obtain ⟨hl, hf⟩ := h w (by simp)
    have ih := ih (s := s.emit (.tx (encodeWire s.cfgAlen.toNat s.cfgAfac.toNat w.1 w.2)))
      fun w hw => h w (by simp [hw])
    rw [planOf, List.map_cons, List.cons_append, runHostCalls, writeFrame_of_bounds hl hf, andThen_next]
    exact ih.trans (by simp [State.emit, writeEvents])

/-- An invocation whose plan begins with writes within the bounds. -/
theorem callHost_of_plan {writes : List (Nat × List Byte)} {rest : List HostTx} {later : List (List HostTx)}
    {s : State} (h : s.hostCalls = (planOf writes ++ rest) :: later) (hb : InBounds s writes) :
    callHost s =
      runHostCalls rest { s with hostCalls := later, events := s.events ++ writeEvents s writes } := by
  unfold callHost
  rw [h]
  exact runHostCalls_of_writes (s := { s with hostCalls := later }) rest hb

/-- An invocation that only writes frames within the bounds. -/
theorem callHost_of_writes {writes : List (Nat × List Byte)} {later : List (List HostTx)} {s : State}
    (h : s.hostCalls = planOf writes :: later) (hb : InBounds s writes) :
    callHost s = .next { s with hostCalls := later, events := s.events ++ writeEvents s writes } :=
  callHost_of_plan (rest := []) (by rw [List.append_nil]; exact h) hb

/-- A plan whose next call is no `WRITE` is refused (R257). -/
theorem runHostCalls_of_reentry {c : HostTx} (hc : ∀ a p, c ≠ .write a p) (rest : List HostTx) (s : State) :
    runHostCalls (c :: rest) s = .refused (.insideHandler c) := by
  cases c with
  | write a p => exact absurd rfl (hc a p)
  | feed b => rfl
  | register a => rfl
  | setGeneric on => rfl
  | setErrcb => rfl
  | reset => rfl

/-- A handler that makes no call changes nothing. -/
theorem callHost_of_quiet {s : State} (h : s.hostCalls = []) : callHost s = .next s := by
  unfold callHost; rw [h]; rfl

/-- An error is one `Error` event and the callback's `Tx` events; nothing else of the block changes (R244). -/
theorem raiseError_eq_next {e : ErrorRec} {s t : State} (h : raiseError e s = .next t) :
    ∃ (calls : List (List HostTx)) (txs : List (List Byte)),
      t = { s with
        hostCalls := calls
        events := s.events ++ .error e s.cfgLogen s.errcbSet :: txs.map .tx } := by
  unfold raiseError at h
  split_ifs at h with he
  · obtain ⟨txs, rfl⟩ := callHost_eq_next h
    exact ⟨_, txs, by simp [State.emit]; rfl⟩
  · cases h
    exact ⟨_, [], by simp [State.emit]; rfl⟩

theorem raiseError_of_quiet {s : State} (e : ErrorRec) (h : s.hostCalls = []) :
    raiseError e s = .next (s.emit (.error e s.cfgLogen s.errcbSet)) := by
  unfold raiseError
  split
  · exact callHost_of_quiet h
  · rfl

/-! ## The dispatcher -/

theorem invokeGeneric_eq_next {a : Nat} {p : List Byte} {s t : State} (h : invokeGeneric a p s = .next t) :
    ∃ (calls : List (List HostTx)) (txs : List (List Byte)),
      t = { s with
        hostCalls := calls
        events := s.events ++ ((if s.genSet then [.invoke .generic a p] else []) ++ txs.map .tx) } := by
  unfold invokeGeneric at h
  split_ifs at h with hg
  · obtain ⟨txs, rfl⟩ := callHost_eq_next h
    exact ⟨_, txs, by simp [State.emit, hg]; rfl⟩
  · cases h
    exact ⟨s.hostCalls, [], by rw [if_neg hg]; simp⟩

/-- A built-in changes at most one configuration register, its own, and only CMD9 emits (R200 to R204). -/
theorem runBuiltin_eq_next {a : Nat} {p : List Byte} {s t : State} (h : runBuiltin a p s = .next t) :
    t = s ∨ (∃ v, a = 0 ∧ p.head? = some v ∧ t = s.setAlen (clampLength v)) ∨
    (∃ v, a = 1 ∧ p.head? = some v ∧ t = s.setAfac v) ∨
    (a = 8 ∧ t = s.setLogen (logRequest p)) ∨
    (a = 9 ∧ ∃ bs, t = s.emit (.tx bs)) := by
  unfold runBuiltin at h
  split at h
  · unfold execCmd0 firstByte at h
    split at h <;> cases h
    · exact .inl rfl
    · rename_i v hv; exact .inr (.inl ⟨v, rfl, hv, rfl⟩)
  · unfold execCmd1 firstByte at h
    split at h <;> cases h
    · exact .inl rfl
    · rename_i v hv; exact .inr (.inr (.inl ⟨v, rfl, hv, rfl⟩))
  · cases h; exact .inl rfl
  · cases h; exact .inl rfl
  · cases h; exact .inl rfl
  · cases h; exact .inl rfl
  · cases h; exact .inl rfl
  · cases h; exact .inl rfl
  · cases h; exact .inr (.inr (.inr (.inl ⟨rfl, rfl⟩)))
  · obtain ⟨-, -, rfl⟩ := writeFrame_eq_next h
    exact .inr (.inr (.inr (.inr ⟨rfl, _, rfl⟩)))
  · cases h; exact .inl rfl

/-- Routing ends in the user handler, in a built-in, or in nothing (R184). -/
theorem route_eq_next {a : Nat} {p : List Byte} {s t : State} (h : route a p s = .next t) :
    (s.userSlot a = true ∧ callHost (s.emit (.invoke .user a p)) = .next t) ∨
    (s.userSlot a = false ∧ s.builtinSlot a = true ∧ runBuiltin a p (s.emit (.invoke .builtin a p)) = .next t) ∨
    (s.userSlot a = false ∧ s.builtinSlot a = false ∧ t = s) := by
  unfold route at h
  split_ifs at h with hu hb
  · exact .inl ⟨hu, h⟩
  · exact .inr (.inl ⟨by simpa using hu, hb, h⟩)
  · cases h; exact .inr (.inr ⟨by simpa using hu, by simpa using hb, rfl⟩)

/-- A dispatch reported a runt, or decoded, stripped and resolved the frame (R180). -/
theorem execDispatch_eq_next {frame : List Byte} {s t : State} (h : execDispatch frame s = .next t) :
    (frame.length < s.cfgAlen.toNat ∧
      raiseError (.runtFrame frame.length s.cfgAlen.toNat frame) s = .next t) ∨
    (s.cfgAlen.toNat ≤ frame.length ∧
      addrFits s.build (decodeAddress (addressField s.cfgAlen.toNat frame) s.cfgAlen.toNat s.cfgAfac.toNat) = true ∧
      resolve (decodeAddress (addressField s.cfgAlen.toNat frame) s.cfgAlen.toNat s.cfgAfac.toNat)
        (payloadField s.cfgAlen.toNat frame) s = .next t) := by
  unfold execDispatch at h
  split_ifs at h with hr
  · exact .inl ⟨hr, h⟩
  · obtain ⟨-, hf, ht⟩ := withDecoded_eq_next h
    exact .inr ⟨by omega, hf, ht⟩

/-! ## What the dispatcher answers where the handlers make no call -/

theorem userSlot_congr {s t : State} (h1 : t.tblCap = s.tblCap) (h2 : t.tbl = s.tbl) (a : Nat) :
    t.userSlot a = s.userSlot a := by
  unfold State.userSlot; rw [h1, h2]

theorem builtinSlot_congr {s t : State} (h : t.bi = s.bi) (a : Nat) : t.builtinSlot a = s.builtinSlot a := by
  unfold State.builtinSlot; rw [h]

@[simp] theorem State.emit_userSlot (s : State) (e : Event) (a : Nat) : (s.emit e).userSlot a = s.userSlot a := rfl
@[simp] theorem State.emit_builtinSlot (s : State) (e : Event) (a : Nat) :
    (s.emit e).builtinSlot a = s.builtinSlot a := rfl

/-- A slot of the built-in table lies below `BUILTIN_COUNT`. -/
theorem builtinSlot_lt {s : State} {a : Nat} (h : s.builtinSlot a = true) : a < 10 := by
  unfold State.builtinSlot at h
  rw [Bool.and_eq_true, decide_eq_true_eq] at h
  exact h.1

/-- The address field read alone or with what follows it. -/
theorem decodeAddress_addressField (bytes : List Byte) (w f : Nat) :
    decodeAddress (addressField w bytes) w f = decodeAddress bytes w f := by
  unfold decodeAddress addressField
  rw [List.take_take, Nat.min_self]

/-- A frame that is no runt and whose address fits is resolved (R180). -/
theorem execDispatch_of_fits {frame : List Byte} {s : State} (h : s.cfgAlen.toNat ≤ frame.length)
    (hf : addrFits s.build (decodeAddress frame s.cfgAlen.toNat s.cfgAfac.toNat) = true) :
    execDispatch frame s =
      resolve (decodeAddress frame s.cfgAlen.toNat s.cfgAfac.toNat) (frame.drop s.cfgAlen.toNat) s := by
  unfold execDispatch
  rw [if_neg (by omega),
    withDecoded_of_fits (by simpa [addressField] using h) (by rwa [decodeAddress_addressField]),
    decodeAddress_addressField]
  rfl

theorem invokeGeneric_of_quiet {a : Nat} {p : List Byte} {s : State} (h : s.hostCalls = []) :
    invokeGeneric a p s =
      .next { s with events := s.events ++ if s.genSet then [.invoke .generic a p] else [] } := by
  unfold invokeGeneric
  split
  · exact callHost_of_quiet h
  · rw [List.append_nil]

theorem route_of_user {a : Nat} {p : List Byte} {s : State} (h : s.userSlot a = true) (hq : s.hostCalls = []) :
    route a p s = .next (s.emit (.invoke .user a p)) := by
  unfold route
  rw [if_pos h]
  exact callHost_of_quiet hq

theorem route_of_builtin {a : Nat} {p : List Byte} {s : State} (h : s.userSlot a = false)
    (hb : s.builtinSlot a = true) : route a p s = runBuiltin a p (s.emit (.invoke .builtin a p)) := by
  unfold route
  rw [if_neg (by simp [h]), if_pos hb]

theorem route_of_none {a : Nat} {p : List Byte} {s : State} (h : s.userSlot a = false)
    (hb : s.builtinSlot a = false) : route a p s = .next s := by
  unfold route
  rw [if_neg (by simp [h]), if_neg (by simp [hb])]

/-! ## The user table -/

theorem mem_insertSlot {a k : Nat} {l : List Nat} : k ∈ insertSlot a l ↔ k = a ∨ k ∈ l := by
  induction l with
  | nil => simp [insertSlot]
  | cons x l ih =>
    unfold insertSlot
    split_ifs with h1 h2
    · simp
    · subst h2; simp
    · simp only [List.mem_cons, ih]; tauto

theorem insertSlot_pairwise {a : Nat} {l : List Nat} (h : l.Pairwise (· < ·)) : (insertSlot a l).Pairwise (· < ·) := by
  induction l with
  | nil => simp [insertSlot]
  | cons x l ih =>
    obtain ⟨hx, hl⟩ := List.pairwise_cons.mp h
    unfold insertSlot
    split_ifs with h1 h2
    · refine List.pairwise_cons.mpr ⟨fun y hy => ?_, h⟩
      rcases List.mem_cons.mp hy with rfl | hy
      · exact h1
      · exact h1.trans (hx y hy)
    · exact h
    · refine List.pairwise_cons.mpr ⟨fun y hy => ?_, ih hl⟩
      rcases mem_insertSlot.mp hy with rfl | hy
      · omega
      · exact hx y hy

end Sys2Proof.Machine
end

