-- ==== Sys2Proof/Laws/Codec.lean ====
section
/-! SUPPORT. The radix codec as arithmetic: what each digit is, what decoding sums, and how the two undo each other. -/

namespace Sys2Proof

/-- The digit at an index, most significant first (42_address_codec.md R156). -/
theorem encodeDigits_getElem? (a w f : Nat) {i : Nat} (h : i < w) :
    (encodeDigits a w f)[i]? = some (a / f ^ (w - 1 - i) % f) := by
  induction w generalizing a i with
  | zero => omega
  | succ w ih =>
    rw [encodeDigits]
    by_cases hi : i < w
    · rw [List.getElem?_append_left (by simpa using hi), ih _ hi, Nat.div_div_eq_div_mul, ← pow_succ']
      congr 4; omega
    · obtain rfl : i = w := by omega
      simp

/-- Only `a mod f^w` reaches the digits (R157). -/
theorem encodeDigits_mod (a w f : Nat) : encodeDigits (a % f ^ w) w f = encodeDigits a w f := by
  apply List.ext_getElem?
  intro i
  by_cases hi : i < w
  · rw [encodeDigits_getElem? _ _ _ hi, encodeDigits_getElem? _ _ _ hi]
    congr 1
    have : f ^ w = f ^ (w - 1 - i) * (f * f ^ i) := by rw [← pow_succ', ← pow_add]; congr 1; omega
    rw [this, Nat.mod_mul_right_div_self, Nat.mod_mul_right_mod]
  · rw [List.getElem?_eq_none (by simp; omega), List.getElem?_eq_none (by simp; omega)]

/-- Only the first `w` bytes are read. -/
theorem decodeAddress_append {bs : List Byte} {w : Nat} (h : bs.length = w) (p : List Byte) (f : Nat) :
    decodeAddress (bs ++ p) w f = decodeAddress bs w f := by
  unfold decodeAddress
  rw [List.take_append_of_le_length (by omega)]

/-- One more byte, in Horner form. -/
theorem decodeAddress_succ {bs : List Byte} {w : Nat} (h : w < bs.length) (f : Nat) :
    decodeAddress bs (w + 1) f = decodeAddress bs w f * f + (bs.getD w 0).toNat := by
  unfold decodeAddress
  rw [List.take_add_one, List.foldl_append, List.getElem?_eq_getElem h]
  simp [List.getD, List.getElem?_eq_getElem h]

/-- Decoding as a sum over the positions (R158). -/
theorem decodeAddress_eq_sum {bs : List Byte} {w : Nat} (h : w ≤ bs.length) (f : Nat) :
    decodeAddress bs w f = ∑ i ∈ Finset.range w, (bs.getD i 0).toNat * f ^ (w - 1 - i) := by
  induction w with
  | zero => simp [decodeAddress]
  | succ w ih =>
    rw [decodeAddress_succ (by omega), ih (by omega), Finset.sum_range_succ, Finset.sum_mul]
    congr 1
    · refine Finset.sum_congr rfl fun i hi => ?_
      rw [mul_assoc, ← pow_succ]
      congr 2
      have := Finset.mem_range.mp hi
      omega
    · simp

/-- Decoding the digits of `a` gives `a mod f^w`, where every digit fits a byte (R159). -/
theorem decodeAddress_digitBytes {a w f : Nat} (h : ∀ d ∈ encodeDigits a w f, d < 256) :
    decodeAddress (digitBytes (encodeDigits a w f)) w f = a % f ^ w := by
  induction w generalizing a with
  | zero => simp [encodeDigits, decodeAddress, Nat.mod_one]
  | succ w ih =>
    rw [encodeDigits] at h
    have hl : a % f < 256 := h _ (by simp)
    have hi := ih (a := a / f) fun d hd => h d (by simp [hd])
    have hd : (digitBytes (encodeDigits (a / f) w f)).length = w := by simp [digitBytes]
    have e : digitBytes (encodeDigits a (w + 1) f) =
        digitBytes (encodeDigits (a / f) w f) ++ [BitVec.ofNat 8 (a % f)] := by
      simp [encodeDigits, digitBytes]
    have hx : ((digitBytes (encodeDigits (a / f) w f) ++ [BitVec.ofNat 8 (a % f)]).getD w 0).toNat = a % f := by
      simp [List.getD, hd, Nat.mod_eq_of_lt hl]
    rw [e, decodeAddress_succ (by simp [hd]), decodeAddress_append hd, hi, hx, pow_succ', Nat.mod_mul]
    ring

/-- Encoding what a field of bytes below the radix decodes to gives the field (R159). -/
theorem encodeDigits_decodeAddress {bs : List Byte} {w f : Nat} (hl : bs.length = w)
    (h : ∀ b ∈ bs, b.toNat < f) : encodeDigits (decodeAddress bs w f) w f = bs.map BitVec.toNat := by
  induction w generalizing bs with
  | zero => simp [List.length_eq_zero_iff.mp hl, encodeDigits]
  | succ w ih =>
    obtain ⟨l, x, rfl⟩ : ∃ l x, bs = l ++ [x] :=
      ⟨bs.dropLast, bs.getLast (by rintro rfl; simp at hl), (List.dropLast_append_getLast _).symm⟩
    have hx : x.toNat < f := h x (by simp)
    have hw : l.length = w := by simpa using hl
    have e : decodeAddress (l ++ [x]) (w + 1) f = decodeAddress l w f * f + x.toNat := by
      rw [decodeAddress_succ (by simp [hw]), decodeAddress_append hw]
      simp [List.getD, hw]
    rw [e, encodeDigits, Nat.add_comm, Nat.add_mul_mod_self_right, Nat.mod_eq_of_lt hx,
      Nat.add_mul_div_right _ _ (by omega), Nat.div_eq_of_lt hx, Nat.zero_add,
      ih hw fun b hb => h b (by simp [hb])]
    simp

end Sys2Proof
end

