-- ==== Sys2Proof/Laws/PerInstr.lean ====
section
/-! SUPPORT. What is said of every instruction, one lemma per constructor. -/

namespace Sys2Proof.Laws

/-- The call form of an operation decodes to it where its operands are in their domain, and is rejected by name where
they are not. -/
def CallForm.Statement (i : Instr) : Prop :=
  decodeCall (encodeCall i) = if i.wf then .ok i else .reject (.illFormed i)

theorem CallForm.feed (b : Byte) : CallForm.Statement (.feed b) := rfl
theorem CallForm.rxStart : CallForm.Statement (.rxStart) := rfl
theorem CallForm.rxStop : CallForm.Statement (.rxStop) := rfl
theorem CallForm.rxLen (b : Byte) : CallForm.Statement (.rxLen b) := rfl
theorem CallForm.rxData (b : Byte) : CallForm.Statement (.rxData b) := rfl
theorem CallForm.bufClear : CallForm.Statement (.bufClear) := rfl
theorem CallForm.bufAppend (b : Byte) : CallForm.Statement (.bufAppend b) := rfl
theorem CallForm.bufGrow : CallForm.Statement (.bufGrow) := rfl
theorem CallForm.bufSnapshot : CallForm.Statement (.bufSnapshot) := rfl
theorem CallForm.encode (a w f : Nat) : CallForm.Statement (.encode a w f) := rfl
theorem CallForm.decode (bytes : List Byte) (w f : Nat) : CallForm.Statement (.decode bytes w f) := rfl
theorem CallForm.write (address : Nat) (payload : List Byte) : CallForm.Statement (.write address payload) := rfl
theorem CallForm.dispatch (frame : List Byte) : CallForm.Statement (.dispatch frame) := rfl
theorem CallForm.register (a : Nat) : CallForm.Statement (.register a) := rfl
theorem CallForm.cmd0 (address : Nat) (payload : List Byte) : CallForm.Statement (.cmd0 address payload) := rfl
theorem CallForm.cmd1 (address : Nat) (payload : List Byte) : CallForm.Statement (.cmd1 address payload) := rfl
theorem CallForm.cmd2 (address : Nat) (payload : List Byte) : CallForm.Statement (.cmd2 address payload) := rfl
theorem CallForm.cmd3 (address : Nat) (payload : List Byte) : CallForm.Statement (.cmd3 address payload) := rfl
theorem CallForm.cmd4 (address : Nat) (payload : List Byte) : CallForm.Statement (.cmd4 address payload) := rfl
theorem CallForm.cmd5 (address : Nat) (payload : List Byte) : CallForm.Statement (.cmd5 address payload) := rfl
theorem CallForm.cmd6 (address : Nat) (payload : List Byte) : CallForm.Statement (.cmd6 address payload) := rfl
theorem CallForm.cmd7 (address : Nat) (payload : List Byte) : CallForm.Statement (.cmd7 address payload) := rfl
theorem CallForm.cmd8 (address : Nat) (payload : List Byte) : CallForm.Statement (.cmd8 address payload) := rfl
theorem CallForm.cmd9 (address : Nat) (payload : List Byte) : CallForm.Statement (.cmd9 address payload) := rfl
theorem CallForm.setGeneric (on : Bool) : CallForm.Statement (.setGeneric on) := rfl
theorem CallForm.setErrcb : CallForm.Statement (.setErrcb) := rfl
theorem CallForm.reset : CallForm.Statement (.reset) := rfl
theorem CallForm.raise (e : ErrorRec) : CallForm.Statement (.raise e) := rfl

end Sys2Proof.Laws
end

