-- ==== Sys2Proof/Laws/Run.lean ====
section
/-! SUPPORT. Steps and runs: what the next transaction does, and how runs compose. -/

namespace Sys2Proof.Machine

theorem step_idle {s : State} (h : s.hostIn = []) : step s = .next s := by
  unfold step fetch
  rw [h]
  rfl

theorem step_pending {s : State} {tx : HostTx} {later : List HostTx} (h : s.hostIn = tx :: later) :
    step s = exec (decodeTx tx) { s with hostIn := later } := by
  unfold step fetch
  rw [h]

/-- Everything a step that answers a next state can have done. -/
theorem step_eq_next {s t : State} (h : step s = .next t) :
    (s.hostIn = [] ∧ t = s) ∨
    ∃ tx later, s.hostIn = tx :: later ∧ exec (decodeTx tx) { s with hostIn := later } = .next t := by
  cases hh : s.hostIn with
  | nil => rw [step_idle hh] at h; cases h; exact .inl ⟨rfl, rfl⟩
  | cons tx later => exact .inr ⟨tx, later, rfl, (step_pending hh).symm.trans h⟩

/-- A run of any machine whose first step answers a next state. -/
theorem run_of_step {M : Host.Core} {k : Nat} {s t : M.State} (h : M.step s = .next t) :
    M.run (k + 1) s = M.run k t := by
  rw [Host.Core.run, h]

theorem run_eq_next {M : Host.Core} {k : Nat} {s t : M.State} (h : M.run (k + 1) s = .next t) :
    ∃ u, M.step s = .next u ∧ M.run k u = .next t := by
  rw [Host.Core.run] at h
  split at h
  · exact ⟨_, ‹_›, h⟩
  · cases h
  · cases h

theorem run_add {M : Host.Core} {k l : Nat} {s t : M.State} (h : M.run k s = .next t) :
    M.run (k + l) s = M.run l t := by
  induction k generalizing s with
  | zero => cases h; rw [Nat.zero_add]
  | succ k ih =>
    obtain ⟨u, hu, h⟩ := run_eq_next h
    rw [Nat.add_right_comm, run_of_step hu, ih h]

end Sys2Proof.Machine
end

