-- ==== Sys2Proof/Tests/Slice0.lean ====
section
/-! SUPPORT. Tests of one operation or one step each, their results taken from the vectors of spec/95_test_vectors.md (V1 to
V85, S1, S2) or computed by hand from the rule named, and a witness for the hypotheses of each statement. -/

namespace Sys2Proof.Tests

open Sys2Proof Sys2Proof.Machine

/-! ## Small states and projections -/

/-- Bytes stored from index 0 up. -/
def stored (body : List Byte) : Memory :=
  (body.foldl (fun (acc : Memory × Nat) b => (acc.1.write acc.2 b, acc.2 + 1)) ([], 0)).1

/-- Reset, with a declared length and some body bytes in the buffer. -/
def rx (ms : Byte) (body : List Byte) : State :=
  { State.reset with rxMsize := ms, rxBidx := body.length, rxBuf := stored body }

/-- Reset, with the configuration (L, F, G). -/
def cfg (l f : Byte) (g : Bool) : State := { State.reset with cfgAlen := l, cfgAfac := f, cfgLogen := g }

/-- Reset, with the generic handler set. -/
def gen : State := { State.reset with genSet := true }

/-- A projection of the next state, none where there is none. -/
def got {α : Type} (o : Out) (f : State → α) : Option α :=
  match o with
  | .next s => some (f s)
  | .fault _ => none
  | .refused _ => none

/-- The fault, if the outcome is one. -/
def faultOf (o : Out) : Option Fault :=
  match o with
  | .next _ => none
  | .fault r => some r
  | .refused _ => none

/-- The refusal, if the outcome is one. -/
def refusalOf (o : Out) : Option Refusal :=
  match o with
  | .next _ => none
  | .fault _ => none
  | .refused r => some r

/-! ## Well-formedness: a term that each check refuses -/

theorem test_wf_rxLen_sentinel : (Instr.rxLen 254).wf = false := by decide
theorem test_wf_rxData_sentinel : (Instr.rxData 255).wf = false := by decide
theorem test_wf_encode_width : (Instr.encode 5 0 200).wf = false := by decide
theorem test_wf_encode_radix : (Instr.encode 300 1 1000).wf = true ∧ (Instr.encode 5 1 256).wf = true := by decide
theorem test_wf_decode_width : (Instr.decode [5] 0 200).wf = false := by decide
theorem test_wf_decode_short : (Instr.decode [5] 2 200).wf = false ∧ (Instr.decode [5, 0] 2 200).wf = true := by decide
theorem test_wf_dispatch_long :
    (Instr.dispatch (List.replicate 254 1)).wf = false ∧ (Instr.dispatch (List.replicate 253 1)).wf = true := by
  simp [-List.reduceReplicate, Instr.wf, sentinelFree, Config.isSentinel, Config.startByte, Config.stopByte]
theorem test_wf_dispatch_sentinel : (Instr.dispatch [5, 254]).wf = false := by decide
theorem test_wf_command_address :
    (Instr.cmd0 1 [3]).wf = false ∧ (Instr.cmd1 0 []).wf = false ∧ (Instr.cmd2 3 []).wf = false ∧
    (Instr.cmd3 2 []).wf = false ∧ (Instr.cmd4 5 []).wf = false ∧ (Instr.cmd5 4 []).wf = false ∧
    (Instr.cmd6 7 []).wf = false ∧ (Instr.cmd7 6 []).wf = false ∧ (Instr.cmd8 9 []).wf = false ∧
    (Instr.cmd9 8 []).wf = false := by decide
theorem test_wf_command_sentinel : (Instr.cmd0 0 [255]).wf = false ∧ (Instr.cmd9 9 [254]).wf = false := by decide
theorem test_wf_raise_sizes :
    (Instr.raise (.sizeMismatch 2 2 [1, 1])).wf = false ∧ (Instr.raise (.sizeMismatch 3 2 [1])).wf = false ∧
    (Instr.raise (.runtFrame 1 1 [9])).wf = false ∧ (Instr.raise (.runtFrame 1 3 [])).wf = false := by decide
theorem test_params :
    BuildParams.default.ok = true ∧ ({ BuildParams.default with bufCapMax := some 31 }).ok = false ∧
    ({ BuildParams.default with tagAlen := 254 }).ok = false ∧ ({ BuildParams.default with tagAfac := 255 }).ok = false ∧
    ({ BuildParams.default with tagLogen := 255 }).ok = false := by decide

/-! ## Decoding: words written out from the encodings -/

/-- 00_scope.md R7, 30_encoding.md R91: the sentinels differ. -/
theorem test_sentinels_differ : Config.startByte ≠ Config.stopByte := by decide
/-- The table's two rows with bits: RX.START 11111110, RX.STOP 11111111; bits above the byte give no word. -/
theorem test_table_words :
    decodeTableWord 8 0b11111110 = some .rxStart ∧ decodeTableWord 8 0b11111111 = some .rxStop ∧
    decodeTableWord 8 0b00000010 = some (.rxLen 2) ∧ decodeTableWord 16 0b11111110 = none := by decide
/-- RX.LEN bbbbbbbb and RX.DATA bbbbbbbb: the byte 2, then 253, before and after a length is known (R94). -/
theorem test_decode_len_and_data :
    decodeByte false 0b00000010 = .rxLen 2 ∧ decodeByte true 0b00000010 = .rxData 2 ∧
    decodeByte false 0b11111101 = .rxLen 253 ∧ decodeByte true 0b11111101 = .rxData 253 := by decide
/-- START and STOP come before the length test (R94). -/
theorem test_decode_priority : decodeByte true 0b11111110 = .rxStart ∧ decodeByte true 0b11111111 = .rxStop := by decide
/-- FRAME of R103 for a command of each address in format (1, 200), written byte by byte: SETLEN(3), SETFAC(10), ... -/
theorem test_decode_commands_low :
    decodeWireCommand 1 200 [0b11111110, 2, 0, 3, 0b11111111] = .ok (.cmd0 0 [3]) ∧
    decodeWireCommand 1 200 [254, 2, 1, 10, 255] = .ok (.cmd1 1 [10]) ∧
    decodeWireCommand 1 200 [254, 1, 2, 255] = .ok (.cmd2 2 []) ∧
    decodeWireCommand 1 200 [254, 1, 3, 255] = .ok (.cmd3 3 []) ∧
    decodeWireCommand 1 200 [254, 1, 4, 255] = .ok (.cmd4 4 []) := by decide
theorem test_decode_commands_high :
    decodeWireCommand 1 200 [254, 2, 5, 0x41, 255] = .ok (.cmd5 5 [0x41]) ∧
    decodeWireCommand 1 200 [254, 1, 6, 255] = .ok (.cmd6 6 []) ∧
    decodeWireCommand 1 200 [254, 1, 7, 255] = .ok (.cmd7 7 []) ∧
    decodeWireCommand 1 200 [254, 2, 8, 1, 255] = .ok (.cmd8 8 [1]) ∧
    decodeWireCommand 3 200 [254, 3, 0, 0, 9, 255] = .ok (.cmd9 9 []) := by decide
/-- Malformed frames are rejected by name (R90 to R92, R99). -/
theorem test_decode_rejects :
    decodeWireCommand 1 200 [] = .reject .noStart ∧ decodeWireCommand 1 200 [2, 5, 0x41, 255] = .reject .noStart ∧
    decodeWireCommand 1 200 [254] = .reject .noLength ∧ decodeWireCommand 1 200 [254, 1, 9] = .reject .noStop ∧
    decodeWireCommand 1 200 [254, 4, 5, 1, 255, 2, 255] = .reject .sentinelInside ∧
    decodeWireCommand 1 200 [254, 3, 5, 0x41, 255] = .reject .lengthMismatch ∧
    decodeWireCommand 3 200 [254, 1, 9, 255] = .reject .runt ∧
    decodeWireCommand 1 200 [254, 1, 10, 255] = .reject (.noBuiltin 10) := by decide
/-- The call forms of the rows without bits, as the table's "encoding" column and R103 write them. -/
theorem test_decode_host_calls :
    decodeCall ⟨.feed, [.byte 254]⟩ = .ok (.feed 254) ∧
    decodeCall ⟨.write, [.nat 5, .bytes [0x41]]⟩ = .ok (.write 5 [0x41]) ∧
    decodeCall ⟨.register, [.nat 42]⟩ = .ok (.register 42) ∧
    decodeCall ⟨.setGeneric, [.bit true]⟩ = .ok (.setGeneric true) ∧
    decodeCall ⟨.setErrcb, []⟩ = .ok .setErrcb ∧ decodeCall ⟨.reset, []⟩ = .ok .reset := by decide
theorem test_decode_internal_calls :
    decodeCall ⟨.bufClear, []⟩ = .ok .bufClear ∧ decodeCall ⟨.bufAppend, [.byte 5]⟩ = .ok (.bufAppend 5) ∧
    decodeCall ⟨.bufGrow, []⟩ = .ok .bufGrow ∧ decodeCall ⟨.bufSnapshot, []⟩ = .ok .bufSnapshot ∧
    decodeCall ⟨.encode, [.nat 1000, .nat 2, .nat 200]⟩ = .ok (.encode 1000 2 200) ∧
    decodeCall ⟨.decode, [.bytes [5, 0], .nat 2, .nat 200]⟩ = .ok (.decode [5, 0] 2 200) ∧
    decodeCall ⟨.dispatch, [.bytes [5, 0x41]]⟩ = .ok (.dispatch [5, 0x41]) ∧
    decodeCall ⟨.raise, [.error (.sizeMismatch 3 2 [5, 0x41])]⟩ = .ok (.raise (.sizeMismatch 3 2 [5, 0x41])) := by decide
theorem test_decode_call_rejects :
    decodeCall ⟨.feed, []⟩ = .reject (.badOperands .feed) ∧
    decodeCall ⟨.encode, [.nat 1, .nat 0, .nat 2]⟩ = .reject (.illFormed (.encode 1 0 2)) := by decide
/-- R103: the pseudo-operations SETLEN(3), STATUS? in format (1, 200). -/
theorem test_encode_frames :
    encode 1 200 (.cmd0 0 [3]) = [254, 2, 0, 3, 255] ∧ encode 3 200 (.cmd9 9 []) = [254, 3, 0, 0, 9, 255] ∧
    encode 1 200 .rxStart = [254] ∧ encode 1 200 .rxStop = [255] ∧ encode 1 200 (.rxLen 2) = [2] := by decide

/-! ## The receive machine -/

/-- V2: the START inside a frame discards `5, 1` and reports nothing. -/
theorem test_feed_start_discards :
    got (exec (.feed 254) (rx 4 [5, 1])) (fun t => (t.rxMsize, t.rxBidx, t.rxBuf, t.events)) = some (0, 0, [], []) := by
  decide
/-- V1: the third byte of `254, 2, 5` is a body byte. -/
theorem test_feed_data :
    got (exec (.feed 5) (rx 2 [])) (fun t => (t.rxMsize, t.rxBidx, t.rxBuf)) = some (2, 1, [(0, 5)]) := by decide
/-- V12. -/
theorem test_rxStart : got (exec .rxStart (rx 0 [])) (fun t => (t.rxMsize, t.rxBidx, t.events)) = some (0, 0, []) := by
  decide
/-- V1, S1: the STOP of `254, 2, 5, 0x41, 255`. -/
theorem test_rxStop_frame :
    got (exec .rxStop (rx 2 [5, 0x41])) (fun t => (t.rxMsize, t.rxBidx, t.events)) =
      some (0, 0, [.frame [5, 0x41], .invoke .builtin 5 [0x41]]) := by decide
/-- V7: overrun. -/
theorem test_rxStop_overrun :
    got (exec .rxStop (rx 2 [5, 0x41, 0x42])) (fun t => (t.rxMsize, t.rxBidx, t.events)) =
      some (0, 0, [.error (.sizeMismatch 2 3 [5, 0x41, 0x42]) false false]) := by decide
/-- V11: a STOP after reset. -/
theorem test_feed_stop_alone :
    got (exec (.feed 255) State.reset) (fun t => t.events) =
      some [.frame [], .error (.runtFrame 0 1 []) false false] := by decide
/-- V8, V9: a length byte, and a zero that relatches. -/
theorem test_rxLen :
    got (exec (.rxLen 2) State.reset) (fun t => (t.rxMsize, t.rxBidx)) = some (2, 0) ∧
    got (exec (.feed 0) State.reset) (fun t => t.rxMsize) = some 0 := by decide
/-- V5: the 33rd body byte doubles the capacity. -/
theorem test_rxData_grows :
    got (exec (.rxData 9) (rx 41 (List.replicate 32 7)))
      (fun t => (t.rxCap, t.rxBidx, t.rxBuf.read 0, t.rxBuf.read 31, t.rxBuf.read 32)) = some (64, 33, 7, 7, 9) := by
  decide
/-- R129: a byte past the declared length is stored all the same. -/
theorem test_rxData_overrun :
    got (exec (.rxData 0x42) (rx 2 [5, 0x41])) (fun t => (t.rxMsize, t.rxBidx, t.rxBuf.read 2)) = some (2, 3, 0x42) := by
  decide

/-! ## The receive buffer -/

/-- R140. -/
theorem test_bufClear :
    got (exec .bufClear { rx 4 [5, 1] with rxCap := 64 }) (fun t => (t.rxMsize, t.rxBidx, t.rxCap, t.rxBuf)) =
      some (0, 0, 64, []) := by decide
/-- R143, R26: storing 0x00, the clear value, lists no cell and counts. -/
theorem test_bufAppend_zero :
    got (exec (.bufAppend 0) (rx 3 [5])) (fun t => (t.rxBidx, t.rxBuf)) = some (2, [(0, 5)]) := by decide
/-- R144, R145: 32 doubles to 64; with `BUF_CAP_MAX` = 32 it is `BufferExhausted`. -/
theorem test_bufGrow :
    got (exec .bufGrow (rx 2 [5])) (fun t => (t.rxCap, t.rxBuf)) = some (64, [(0, 5)]) ∧
    faultOf (exec .bufGrow { rx 2 [5] with build := { BuildParams.default with bufCapMax := some 32 } }) =
      some (.bufferExhausted []) := by decide
/-- R147: the first `RX_MSIZE` bytes. -/
theorem test_bufSnapshot :
    got (exec .bufSnapshot (rx 2 [5, 0, 7])) (fun t => (t.ret, t.rxBidx)) = some (some (.bytes [5, 0]), 3) := by decide

/-! ## The codec -/

/-- V23, V29a: 1000 in two digits of radix 200; 65535 in radix 255 loses its top digit. -/
theorem test_encode :
    got (exec (.encode 1000 2 200) State.reset) (fun t => t.ret) = some (some (.bytes [5, 0])) ∧
    got (exec (.encode 65535 2 255) State.reset) (fun t => t.ret) = some (some (.bytes [2, 0])) := by decide
/-- V29b, V29c. -/
theorem test_encode_edges :
    got (exec (.encode 7 3 1) State.reset) (fun t => t.ret) = some (some (.bytes [0, 0, 0])) ∧
    faultOf (exec (.encode 7 3 0) State.reset) = some (.encodeRadixZero []) := by decide
/-- V33, V38: digits above the radix are accepted; a wide result does not wrap. -/
theorem test_decode :
    got (exec (.decode [253, 253] 2 200) State.reset) (fun t => t.ret) = some (some (.nat 50853)) ∧
    got (exec (.decode [253, 253, 253] 3 253) State.reset) (fun t => t.ret) = some (some (.nat 16258539)) := by decide
/-- V36, V37, and R164 with `ADDR_W` = 8. -/
theorem test_decode_edges :
    got (exec (.decode [1, 2, 3] 3 1) State.reset) (fun t => t.ret) = some (some (.nat 6)) ∧
    got (exec (.decode [1, 2, 3] 3 0) State.reset) (fun t => t.ret) = some (some (.nat 3)) ∧
    faultOf (exec (.decode [2, 0] 2 200) { State.reset with build := { BuildParams.default with addrW := some 8 } }) =
      some (.addressOverflow []) := by decide

/-! ## The writer -/

/-- V51, V54. -/
theorem test_write :
    got (exec (.write 1000 [1, 2]) State.reset) (fun t => t.events) = some [.tx [254, 3, 0, 1, 2, 255]] ∧
    got (exec (.write 0xABC [9]) (cfg 3 16 false)) (fun t => t.events) = some [.tx [254, 4, 10, 11, 12, 9, 255]] := by
  decide
/-- R172 with a long address field, V58. -/
theorem test_write_faults :
    faultOf (exec (.write 5 [1, 2, 3]) (cfg 253 200 false)) = some (.txLengthOverflow []) ∧
    faultOf (exec (.write 5 []) (cfg 1 0 false)) = some (.encodeRadixZero []) := by decide

/-! ## The dispatcher -/

/-- V44, V46. -/
theorem test_dispatch :
    got (exec (.dispatch [253]) gen) (fun t => t.events) = some [.invoke .generic 253 []] ∧
    got (exec (.dispatch [0, 9]) (cfg 3 200 false)) (fun t => t.events) =
      some [.error (.runtFrame 2 3 [0, 9]) false false] := by decide
/-- V41: a user handler at 0 shadows CMD0, the generic handler comes first. -/
theorem test_dispatch_shadow :
    got (exec (.dispatch [0, 3]) { gen with tblCap := 5, tbl := [0] }) (fun t => (t.events, t.cfgAlen)) =
      some ([.invoke .generic 0 [3], .invoke .user 0 [3]], 1) := by decide
/-- V40: `REGISTER(17)` at capacity 17, then what `REGISTER(16)` finds. -/
theorem test_register :
    got (exec (.register 17) { State.reset with tblCap := 17, tbl := [3, 12] }) (fun t => (t.tblCap, t.tbl)) =
      some (22, [3, 12, 17]) ∧
    got (exec (.register 16) { State.reset with tblCap := 22, tbl := [3, 12, 17] }) (fun t => (t.tblCap, t.tbl)) =
      some (22, [3, 12, 16, 17]) := by decide

/-! ## The built-in commands -/

/-- V60, V61. -/
theorem test_cmd0 :
    got (exec (.cmd0 0 [3]) State.reset) (fun t => (t.cfgAlen, t.cfgAfac)) = some (3, 200) ∧
    got (exec (.cmd0 0 [0]) (cfg 3 200 false)) (fun t => t.cfgAlen) = some 1 := by decide
/-- V62, V63. -/
theorem test_cmd0_payload :
    got (exec (.cmd0 0 []) (cfg 3 200 false)) (fun t => t.cfgAlen) = some 3 ∧
    got (exec (.cmd0 0 [4, 9]) State.reset) (fun t => t.cfgAlen) = some 4 := by decide
/-- V64, V65. -/
theorem test_cmd1 :
    got (exec (.cmd1 1 [10]) State.reset) (fun t => (t.cfgAlen, t.cfgAfac)) = some (1, 10) ∧
    got (exec (.cmd1 1 [0]) State.reset) (fun t => t.cfgAfac) = some 0 := by decide
/-- V67 and S1: the reserved commands. -/
theorem test_cmd2 : got (exec (.cmd2 2 [1]) (cfg 3 16 true)) id = some (cfg 3 16 true) := by decide
theorem test_cmd3 : got (exec (.cmd3 3 [1]) (cfg 3 16 true)) id = some (cfg 3 16 true) := by decide
theorem test_cmd4 : got (exec (.cmd4 4 [1]) (cfg 3 16 true)) id = some (cfg 3 16 true) := by decide
theorem test_cmd5 : got (exec (.cmd5 5 [0x41]) (cfg 3 16 true)) id = some (cfg 3 16 true) := by decide
theorem test_cmd6 : got (exec (.cmd6 6 [1]) (cfg 3 16 true)) id = some (cfg 3 16 true) := by decide
theorem test_cmd7 : got (exec (.cmd7 7 [1]) (cfg 3 16 true)) id = some (cfg 3 16 true) := by decide
/-- V68, V69, V70. -/
theorem test_cmd8 :
    got (exec (.cmd8 8 [1]) State.reset) (fun t => t.cfgLogen) = some true ∧
    got (exec (.cmd8 8 []) (cfg 1 200 true)) (fun t => t.cfgLogen) = some false ∧
    got (exec (.cmd8 8 [2]) (cfg 1 200 true)) (fun t => t.cfgLogen) = some false := by decide
/-- V72, and S2's reply in format (3, 200). -/
theorem test_cmd9 :
    got (exec (.cmd9 9 []) (cfg 1 200 true)) (fun t => t.events) =
      some [.tx [254, 10, 9, 0, 1, 124, 1, 200, 124, 8, 1, 124, 255]] ∧
    got (exec (.cmd9 9 []) (cfg 3 200 false)) (fun t => t.events) =
      some [.tx [254, 12, 0, 0, 9, 0, 3, 124, 1, 200, 124, 8, 0, 124, 255]] := by decide
/-- V73: the request is invoked, then its reply faults; what had happened stays. -/
theorem test_cmd9_radix_zero :
    faultOf (exec (.dispatch [9]) (cfg 1 0 false)) = some (.encodeRadixZero [.invoke .builtin 9 []]) := by decide

/-! ## Host operations, errors, reset -/

/-- V84 in two steps, R222. -/
theorem test_setGeneric :
    got (exec (.setGeneric true) State.reset) (fun t => t.genSet) = some true ∧
    got (exec (.setGeneric false) gen) (fun t => t.genSet) = some false := by decide
/-- R223. -/
theorem test_setErrcb : got (exec .setErrcb State.reset) (fun t => t.errcbSet) = some true := by decide
/-- V83: everything to its reset value, the capacity and the table too. -/
theorem test_reset :
    got (exec .reset { rx 4 [5, 1] with
      rxCap := 64, cfgAlen := 3, genSet := true, errcbSet := true, tblCap := 9, tbl := [4] }) id =
      some State.reset := by decide
/-- V80, V81. -/
theorem test_raise :
    got (exec (.raise (.sizeMismatch 3 2 [5, 0x41])) State.reset) (fun t => t.events) =
      some [.error (.sizeMismatch 3 2 [5, 0x41]) false false] ∧
    got (exec (.raise (.sizeMismatch 3 2 [5, 0x41])) { State.reset with errcbSet := true }) (fun t => t.events) =
      some [.error (.sizeMismatch 3 2 [5, 0x41]) false true] := by decide
/-- V82. -/
theorem test_raise_logged :
    got (exec (.raise (.sizeMismatch 3 2 [5, 0x41])) (cfg 1 200 true)) (fun t => t.events) =
      some [.error (.sizeMismatch 3 2 [5, 0x41]) true false] := by decide
/-- V85: `FEED` from inside a handler is refused; without a handler in place the plan is not read. -/
theorem test_inside_handler :
    refusalOf (exec (.dispatch [42, 7]) { gen with hostCalls := [[.feed 1]] }) = some (.insideHandler (.feed 1)) ∧
    got (exec (.dispatch [42, 7]) { State.reset with hostCalls := [[.feed 1]] }) (fun t => t.hostCalls) =
      some [[.feed 1]] := by decide
/-- R284: the generic handler's frame stands before the built-in's `Invoke`. -/
theorem test_handler_writes :
    got (exec (.dispatch [5, 1]) { gen with hostCalls := [[.write 6 [2]]] }) (fun t => t.events) =
      some [.invoke .generic 5 [1], .tx [254, 2, 6, 2, 255], .invoke .builtin 5 [1]] := by decide

/-! ## The step -/

/-- The first step after reset with a byte placed as the next transaction. -/
theorem test_step_fetch_word :
    got (step (State.reset.withFetchWord 8 0b11111110)) (fun t => (t.rxMsize, t.events)) = some (0, []) ∧
    got (step (State.reset.withFetchWord 8 0b11111111)) (fun t => t.events) =
      some [.frame [], .error (.runtFrame 0 1 []) false false] := by decide
/-- The oldest transaction first, the rest kept. -/
theorem test_step_order :
    got (step { State.reset with hostIn := [.setErrcb, .feed 2] }) (fun t => (t.errcbSet, t.rxMsize, t.hostIn)) =
      some (true, 0, [.feed 2]) := by decide
/-- R221: nothing to do, nothing changes. -/
theorem test_step_idle : got (step (rx 4 [5, 1])) id = some (rx 4 [5, 1]) := by decide

/-! ## Witnesses: states and operands that meet the hypotheses of the statements, clause by clause -/

/-- A byte read is a listed one or the clear value. -/
theorem read_listed (m : Memory) (a : Nat) : m.read a = unlisted ∨ ∃ c ∈ m, m.read a = c.2 := by
  induction m with
  | nil => exact .inl rfl
  | cons c m ih =>
    by_cases h : c.1 = a
    · exact .inr ⟨c, by simp, by rw [Memory.read, if_pos h]⟩
    · rw [show Memory.read (c :: m) a = Memory.read m a from if_neg h]
      rcases ih with ih | ⟨c', hc, ih⟩
      · exact .inl ih
      · exact .inr ⟨c', List.mem_cons_of_mem _ hc, ih⟩

/-- The invariant, from checks on a concrete state. -/
theorem inv_of_checks {s : State} (k : Nat) (h1 : Memory.wf s.rxBuf = true)
    (h2 : (s.rxBuf.all fun c => decide (c.1 < s.rxBidx) && !Config.isSentinel c.2) = true)
    (h3 : Config.isSentinel s.rxMsize = false ∧ (s.rxMsize = 0 → s.rxBidx = 0) ∧ s.rxBidx ≤ s.rxCap ∧
      s.rxCap = Config.bufCapInit * Config.bufGrowFactor ^ k ∧ capAllowed s.build s.rxCap = true)
    (h4 : (s.cfgAlen ≠ 0 ∧ Config.isSentinel s.cfgAlen = false) ∧ Config.isSentinel s.cfgAfac = false ∧
      s.tbl.Pairwise (· < ·) ∧ (∀ a ∈ s.tbl, a < s.tblCap) ∧
      (∀ a, a < Config.builtinCount → s.builtinSlot a = true) ∧ s.build.ok = true) : Inv s := by
  have h2' : ∀ c ∈ s.rxBuf, c.1 < s.rxBidx ∧ Config.isSentinel c.2 = false := by simpa using h2
  obtain ⟨a1, a2, a3, a4, a5⟩ := h3
  obtain ⟨b1, b2, b3, b4, b5, b6⟩ := h4
  refine ⟨h1, fun c hc => (h2' c hc).1, fun a => ?_, a1, a2, a3, ⟨k, a4⟩, a5, b1, b2, b3, b4, b5, b6⟩
  rcases read_listed s.rxBuf a with h | ⟨c, hc, h⟩
  · rw [h]; rfl
  · rw [h]; exact (h2' c hc).2

/-- A frame half received, a user handler at 7, the callback registered, format (3, 16), a larger buffer. -/
def busy : State :=
  { rx 4 [5, 1] with
    rxCap := 64
    cfgAlen := 3
    cfgAfac := 16
    genSet := true
    errcbSet := true
    tblCap := 12
    tbl := [7] }

theorem witness_inv_busy : Inv busy := inv_of_checks 1 (by decide) (by decide) (by decide) (by decide)

/-- The states of each phase: waiting, below the length, at it, past it. -/
theorem witness_phases :
    (Inv (cfg 3 16 true) ∧ (cfg 3 16 true).phase = .waitLen) ∧ (Inv (rx 2 [5]) ∧ (rx 2 [5]).phase = .accum) ∧
    (Inv (rx 2 [5, 1]) ∧ (rx 2 [5, 1]).phase = .full) ∧ (Inv (rx 2 [5, 1, 1]) ∧ (rx 2 [5, 1, 1]).phase = .overrun) :=
  ⟨⟨inv_of_checks 0 (by decide) (by decide) (by decide) (by decide), by decide⟩,
   ⟨inv_of_checks 0 (by decide) (by decide) (by decide) (by decide), by decide⟩,
   ⟨inv_of_checks 0 (by decide) (by decide) (by decide) (by decide), by decide⟩,
   ⟨inv_of_checks 0 (by decide) (by decide) (by decide) (by decide), by decide⟩⟩

/-- EveryStepKeepsInvariant, EveryStepKeepsRegistrations, EachStepReportsAtMostOneError,
StopsOfTheModelAreUnreachable: a state that meets the invariant
and steps by a byte that is no RESET and no STOP. -/
theorem witness_step : ∃ s t : State, Inv s ∧ step s = .next t ∧ s.hostIn.head? = some (.feed 9) ∧
    s.hostIn.head? ≠ some .reset ∧ (9 : Byte) ≠ Config.stopByte :=
  ⟨{ rx 2 [5] with hostIn := [.feed 9] }, _,
    inv_of_checks 0 (by decide) (by decide) (by decide) (by decide), rfl, by decide, by decide, by decide⟩

/-- StepPerformsNextTransaction: nothing pending, and one transaction with another behind it. -/
theorem witness_pending : (rx 2 [5]).hostIn = [] ∧
    ({ rx 2 [5] with hostIn := [.feed 9, .reset] } : State).hostIn = .feed 9 :: [.reset] := by decide

/-- FeedSelectsOneReceiveOperation, FeedOfAByteCompletes: a byte and a state for each clause, at the edges 0, 253. -/
theorem witness_feed :
    (State.reset.rxMsize = 0 ∧ (0 : Byte) ≠ 254 ∧ (0 : Byte) ≠ 255 ∧ (253 : Byte) ≠ 254 ∧ (253 : Byte) ≠ 255) ∧
    ((rx 1 []).rxMsize ≠ 0 ∧ (rx 253 []).rxMsize ≠ 0) ∧
    (Memory.wf (rx 2 [5]).rxBuf = true ∧ Config.isSentinel 0 = false ∧ Config.isSentinel 253 = false ∧
      (rx 2 (List.replicate 31 7)).rxBidx < (rx 2 (List.replicate 31 7)).rxCap) := by decide

/-- CallFormsRoundTrip. -/
theorem witness_call : (Instr.encode 5 1 256).wf = true ∧
    decodeCall ⟨.encode, [.nat 5, .nat 1, .nat 256]⟩ = .ok (.encode 5 1 256) := by decide

/-- ReceivedBytesRoundTrip. -/
theorem witness_bytes : (Instr.rxLen 0).wf = true ∧ (Instr.rxLen 253).wf = true ∧ (Instr.rxData 253).wf = true := by
  decide

/-- WireFramesRoundTrip: the widest radix with its largest digit, the longest payload, the longest address field. -/
theorem witness_wire :
    (1 ≤ 1 ∧ 2 ≤ 254 ∧ 254 ≤ 254 ∧ 253 < 254 ^ 1 ∧ sentinelFree (List.replicate 252 253) = true ∧
      1 + (List.replicate 252 (253 : Byte)).length ≤ 253) ∧
    (2 ≤ 2 ∧ 1 < 2 ^ 253 ∧ sentinelFree [] = true ∧ 253 + ([] : List Byte).length ≤ 253) := by
  refine ⟨⟨by decide, by decide, by decide, by decide, ?_, ?_⟩, by decide⟩
  · simp [-List.reduceReplicate, sentinelFree, Config.isSentinel, Config.startByte, Config.stopByte]
  · rw [List.length_replicate]

/-- BuiltinFramesDecodeToTheirCommand: the first and the last command at the smallest radix. -/
theorem witness_builtin_frames :
    (10 ≤ 10 ∧ 10 ≤ 254 ∧ decodeCommand 0 [3] = .ok (.cmd0 0 [3]) ∧ sentinelFree [3] = true) ∧
    (decodeCommand 9 [] = .ok (.cmd9 9 []) ∧ 253 + ([] : List Byte).length ≤ 253) := by decide

/-- ZeroLengthByteRelatches, StopWithoutLengthReportsRunt: both ways the callback makes no call. -/
theorem witness_no_length :
    (State.reset.rxMsize = 0 ∧ State.reset.rxBidx = 0 ∧ State.reset.cfgAlen ≠ 0 ∧ State.reset.errcbSet = false) ∧
    Quiet { State.reset with errcbSet := true } := ⟨by decide, rfl⟩

/-- AppendStoresAtTheCursor: room for one byte; full and free to grow; full at a bound. -/
theorem witness_append :
    (Memory.wf (rx 40 (List.replicate 31 7)).rxBuf = true ∧
      (rx 40 (List.replicate 31 7)).rxBidx < (rx 40 (List.replicate 31 7)).rxCap) ∧
    (Memory.wf (rx 40 (List.replicate 32 7)).rxBuf = true ∧
      (rx 40 (List.replicate 32 7)).rxBidx = (rx 40 (List.replicate 32 7)).rxCap ∧
      0 < (rx 40 (List.replicate 32 7)).rxCap ∧ capAllowed BuildParams.default 64 = true) ∧
    capAllowed { BuildParams.default with bufCapMax := some 63 } 64 = false ∧
    capAllowed { BuildParams.default with bufCapMax := some 64 } 64 = true := by decide

/-- RxStopDispatchesTheFrame and SnapshotReturnsTheBody: an empty frame and one that fills the buffer. -/
theorem witness_complete :
    ((rx 0 []).rxBidx = (rx 0 []).rxMsize.toNat ∧ (rx 0 []).rxBidx ≤ (rx 0 []).rxCap) ∧
    ((rx 32 (List.replicate 32 7)).rxBidx = (rx 32 (List.replicate 32 7)).rxMsize.toNat ∧
      (rx 32 (List.replicate 32 7)).rxMsize.toNat ≤ (rx 32 (List.replicate 32 7)).rxCap) := by decide

/-- CompletedFrameReachesItsHandlers, DispatchResolvesInOrder: address 10 with no handler, 9 with a user handler, and for
the built-in clause 9 with none. -/
theorem witness_completed :
    ((rx 1 [10]).rxBidx = (rx 1 [10]).rxMsize.toNat ∧ (rx 1 [10]).cfgAlen.toNat ≤ (rx 1 [10]).rxBidx ∧
      decodeAddress (bodyBytes (rx 1 [10]) 1) 1 200 = 10 ∧ addrFits (rx 1 [10]).build 10 = true ∧
      (rx 1 [10]).builtinSlot 10 = false) ∧
    ({ rx 1 [9] with tblCap := 10, tbl := [9] } : State).userSlot 9 = true ∧
    ((rx 1 [9]).userSlot 9 = false ∧ (rx 1 [9]).builtinSlot 9 = true ∧ decodeAddress [9] 1 200 = 9) ∧
    (rx 1 [10]).hostCalls = [] := by decide

/-- RxStopReportsSizeMismatch: one byte short and one byte over. -/
theorem witness_mismatch :
    ((rx 2 [5]).rxBidx ≠ (rx 2 [5]).rxMsize.toNat ∧ (rx 2 [5]).rxBidx ≤ (rx 2 [5]).rxCap ∧
      (rx 2 [5]).errcbSet = false) ∧ (rx 2 [5, 1, 1]).rxBidx ≠ (rx 2 [5, 1, 1]).rxMsize.toNat := by decide

/-- FrameFedByteByByteIsDispatched: a frame of one byte pending after a half received one. -/
theorem witness_frame_fed :
    (Inv { busy with hostIn := [.feed 254, .feed 1, .feed 253, .feed 255, .setErrcb] } ∧
      RoomForFrames busy.build ∧ sentinelFree [253] = true) ∧
    [HostTx.feed 254, .feed 1, .feed 253, .feed 255, .setErrcb] =
      (Config.startByte :: BitVec.ofNat 8 1 :: ([253] ++ [Config.stopByte])).map HostTx.feed ++ [.setErrcb] :=
  ⟨⟨inv_of_checks 1 (by decide) (by decide) (by decide) (by decide), rfl, by decide⟩, by decide⟩

/-- ReceiverHandsOverWhatWasWritten: P5's frame, written by one instance and pending at another. -/
theorem witness_write_and_receive :
    (∃ w', exec (.write 0xABC [9]) (cfg 3 16 false) = .next w' ∧
      w'.events = (cfg 3 16 false).events ++ [.tx [254, 4, 10, 11, 12, 9, 255]]) ∧
    (Inv { cfg 3 16 false with genSet := true, hostIn := [254, 4, 10, 11, 12, 9, 255].map .feed } ∧
      RoomForFrames BuildParams.default ∧ 3 + [(9 : Byte)].length ≤ 253 ∧ sentinelFree [9] = true ∧
      0xABC % 16 ^ 3 = 0xABC ∧ (cfg 3 16 false).builtinSlot 0xABC = false) ∧
    Quiet (cfg 3 16 false) ∧ SameConfig (cfg 3 16 false) { cfg 3 16 false with genSet := true } :=
  ⟨⟨_, rfl, rfl⟩,
   ⟨inv_of_checks 0 (by decide) (by decide) (by decide) (by decide), rfl, by decide, by decide, by decide, by decide⟩,
   rfl, ⟨rfl, rfl, rfl⟩⟩

/-- BufGrowDoublesAndCopies, both clauses at the bound. -/
theorem witness_grow :
    capAllowed ({ rx 2 [5] with build := { BuildParams.default with bufCapMax := some 64 } } : State).build
      (2 * (rx 2 [5]).rxCap) = true ∧
    capAllowed ({ rx 2 [5] with build := { BuildParams.default with bufCapMax := some 63 } } : State).build
      (2 * (rx 2 [5]).rxCap) = false := by decide

/-- EncodeWritesTheDigits, EncodeTruncatesHighDigits, RadixOneIsUnary, RadixZeroDecodesTheLastByte. -/
theorem witness_codec :
    (1 ≤ 1 ∧ 1 ≤ 256 ∧ 256 ≤ 256) ∧ (1 ≤ [(253 : Byte)].length ∧ addrFits BuildParams.default 253 = true) ∧
    addrFits { BuildParams.default with addrW := some 8 } 255 = true ∧
    addrFits { BuildParams.default with addrW := some 8 } 256 = false := by decide

/-- EncodeWritesTheDigits, CodecRoundTrips with a radix above 256 whose digits fit; WideDigitLeavesOnlyItsByteFree where one
of two digits is 256, and the other fits; ShortFieldIsRefusedAndRadixZeroFaults, one byte short and radix 0. -/
theorem witness_out_of_domain :
    (1 ≤ 257 ∧ ∀ i, i < 1 → 255 / 257 ^ (1 - 1 - i) % 257 < 256) ∧
    (1 ≤ 2 ∧ 1 ≤ 257 ∧ 256 = (5 * 257 + 256) / 257 ^ (2 - 1 - 1) % 257 ∧
      (5 * 257 + 256) / 257 ^ (2 - 1 - 0) % 257 < 256) ∧ ([5] : List Byte).length < 2 ∧ (0 : Nat) = 0 := by decide

/-- R156, log 7, by hand: 255 fits one digit of radix 257; 300 in radix 1000 is one byte, which one is open; one byte is no
field of two. -/
theorem test_out_of_domain :
    got (exec (.encode 255 1 257) State.reset) (fun t => t.ret) = some (some (.bytes [255])) ∧
    got (exec (.encode 300 1 1000) State.reset) (fun t => t.ret) =
      some (some (.bytes [Config.wideDigit 300 1 1000 0])) ∧
    refusalOf (exec (.decode [5] 2 200) State.reset) = some .shortField := ⟨by decide, rfl, by decide⟩

/-- R156, by hand: 1000 * 1000 * 7 + 1000 * 300 + 5 in three digits of radix 1000: only the middle byte is open. -/
theorem test_encode_wide_digit :
    got (exec (.encode 7300005 3 1000) State.reset) (fun t => (t.ret, t.events)) =
      some (some (.bytes [7, Config.wideDigit 7300005 3 1000 1, 5]), []) := by rfl

/-- CodecRoundTrips: an encoding that returns its bytes, at the largest address that fits. -/
theorem witness_round_trip : ∃ t, exec (.encode 39999 2 200) State.reset = .next t ∧
    t.ret = some (.bytes [199, 199]) ∧ 39999 < 200 ^ 2 ∧ ([199, 199] : List Byte).length = 2 :=
  ⟨_, rfl, rfl, by decide, by decide⟩

/-- DecodeIsTheWeightedSum, AddressOverflowFaults: a field at the bound of an 8-bit address, and one past it. -/
theorem witness_decode :
    (1 ≤ 2 ∧ 2 ≤ ([1, 55] : List Byte).length ∧ decodeAddress [1, 55] 2 200 = 255) ∧
    (addrFits { BuildParams.default with addrW := some 8 } (decodeAddress [1, 56] 2 200) = false ∧
      2 ≤ ([1, 56] : List Byte).length) := by decide

/-- WriteSendsOneFrame, CommandNineSendsTheStatus: L + n at 255 and 256, the reply at L = 246 and 247, the radix 0. -/
theorem witness_write :
    ((cfg 253 200 false).cfgAlen.toNat + [(1 : Byte), 2].length ≤ 255 ∧ (cfg 253 200 false).cfgAfac ≠ 0) ∧
    255 < (cfg 253 200 false).cfgAlen.toNat + [(1 : Byte), 2, 3].length ∧ (cfg 1 0 false).cfgAfac = 0 ∧
    (cfg 246 200 false).cfgAlen.toNat ≤ 246 ∧ 247 ≤ (cfg 247 200 false).cfgAlen.toNat := by decide

/-- RuntFrameIsReportedAndDropped: one byte short of the address field, and no byte. -/
theorem witness_runt : [(0 : Byte), 9].length < (cfg 3 200 false).cfgAlen.toNat ∧
    ([] : List Byte).length < State.reset.cfgAlen.toNat ∧ (cfg 3 200 false).errcbSet = false := by decide

/-- RegisteredHandlerShadowsTheBuiltin: a frame to the last built-in address, a user handler there. -/
theorem witness_shadow : ∃ t, ({ State.reset with tblCap := 14, tbl := [9] } : State).userSlot 9 = true ∧
    9 = decodeAddress [9] State.reset.cfgAlen.toNat State.reset.cfgAfac.toNat ∧
    exec (.dispatch [9]) { State.reset with tblCap := 14, tbl := [9] } = .next t := ⟨_, by decide, by decide, rfl⟩

/-- RegisterOccupiesTheSlot: inside the table, at its end, and another address. -/
theorem witness_register : 16 < ({ State.reset with tblCap := 17 } : State).tblCap ∧
    ({ State.reset with tblCap := 17 } : State).tblCap ≤ 17 ∧ (16 : Nat) ≠ 17 := by decide

/-- SetErrcbRegistersTheCallback, its second clause: a state with the callback set and a FEED pending. -/
theorem witness_callback_stays : ∃ t, ({ State.reset with errcbSet := true, hostIn := [.feed 255] } : State).errcbSet = true ∧
    ({ State.reset with errcbSet := true, hostIn := [.feed 255] } : State).hostIn.head? ≠ some .reset ∧
    step { State.reset with errcbSet := true, hostIn := [.feed 255] } = .next t := ⟨_, rfl, by decide, rfl⟩

/-- ReservedCommandsChangeNothing. -/
theorem witness_reserved : Instr.cmd7 7 [1] ∈
    [Instr.cmd2 7 [1], .cmd3 7 [1], .cmd4 7 [1], .cmd5 7 [1], .cmd6 7 [1], .cmd7 7 [1]] := by decide

/-- RaiseReportsOneError: no callback; a quiet one. -/
theorem witness_raise : State.reset.errcbSet = false ∧ Quiet { State.reset with errcbSet := true } := ⟨by decide, rfl⟩

/-- Two writes; with the longest address field the first has the longest payload that fits. -/
def plan : List (Nat × List Byte) := [(5, [1, 2]), (9, [])]

/-- A callback that writes, and one invocation left after it. -/
def calls (s : State) : State := { s with errcbSet := true, hostCalls := planOf plan :: [[]] }

/-- CallbackWriteFollowsItsError; the callback's writes of RxStopReportsSizeMismatch (one byte short, one over),
StopWithoutLengthReportsRunt and RuntFrameIsReportedAndDropped. -/
theorem witness_callback_writes :
    ((calls (cfg 253 200 true)).errcbSet = true ∧
      (calls (cfg 253 200 true)).hostCalls = planOf plan :: [[]] ∧ InBounds (calls (cfg 253 200 true)) plan) ∧
    ((calls (rx 2 [5])).rxBidx ≠ (calls (rx 2 [5])).rxMsize.toNat ∧ (calls (rx 2 [5])).rxBidx ≤ (calls (rx 2 [5])).rxCap ∧
      (calls (rx 2 [5, 1, 1])).rxBidx ≠ (calls (rx 2 [5, 1, 1])).rxMsize.toNat ∧ InBounds (calls (rx 2 [5])) plan) ∧
    ((calls State.reset).rxMsize = 0 ∧ (calls State.reset).rxBidx = 0 ∧ (calls State.reset).cfgAlen ≠ 0 ∧
      InBounds (calls State.reset) plan) ∧
    [(0 : Byte), 9].length < (calls (cfg 3 200 false)).cfgAlen.toNat ∧ InBounds (calls (cfg 3 200 false)) plan := by
  unfold InBounds; decide

/-- R250, R284: the callback of an `E1` and of a runt writes; its frame follows the error. -/
theorem test_callback_writes :
    got (exec .rxStop { rx 2 [5] with errcbSet := true, hostCalls := [[.write 6 [2]]] }) (fun t => t.events) =
      some [.error (.sizeMismatch 2 1 [5]) false true, .tx [254, 2, 6, 2, 255]] ∧
    got (exec (.feed 255) { State.reset with errcbSet := true, hostCalls := [[.write 6 [2]]] }) (fun t => t.events) =
      some [.frame [], .error (.runtFrame 0 1 []) false true, .tx [254, 2, 6, 2, 255]] := by decide

/-- UserHandlerWritesFollowItsInvocation, HandlerWritePrecedesTheStatusReply. -/
theorem witness_handler_writes :
    (({ calls State.reset with tblCap := 47, tbl := [42] } : State).userSlot 42 = true ∧
      (calls State.reset).genSet = false ∧ (calls State.reset).hostCalls = planOf plan :: [[]] ∧
      InBounds (calls State.reset) plan ∧ decodeAddress [42, 7] 1 200 = 42 ∧ addrFits BuildParams.default 42 = true) ∧
    ((calls gen).genSet = true ∧ gen.userSlot 9 = false ∧ gen.builtinSlot 9 = true ∧ decodeAddress [9] 1 200 = 9 ∧
      addrFits gen.build 9 = true ∧ InBounds (calls gen) plan ∧ gen.cfgAlen.toNat ≤ 246 ∧ gen.cfgAfac ≠ 0) := by
  unfold InBounds; decide

/-- GenericWritesPrecedeTheRoute: a user handler with a plan of its own and with none left, no handler at the first
address past the built-ins, and the built-in below it. -/
theorem witness_generic_writes :
    ((calls gen).genSet = true ∧ (calls gen).cfgAlen.toNat ≤ [(42 : Byte)].length ∧ decodeAddress [42] 1 200 = 42 ∧
      addrFits (calls gen).build 42 = true ∧ (calls gen).hostCalls = planOf plan :: [[]] ∧ InBounds (calls gen) plan) ∧
    (({ calls gen with tblCap := 47, tbl := [42] } : State).userSlot 42 = true ∧
      [([] : List HostTx)] = planOf [] :: [] ∧
      ({ calls gen with hostCalls := [planOf plan] } : State).hostCalls = planOf plan :: []) ∧
    ((calls gen).userSlot 10 = false ∧ (calls gen).builtinSlot 10 = false ∧ decodeAddress [10] 1 200 = 10) ∧
    ((calls gen).userSlot 9 = false ∧ (calls gen).builtinSlot 9 = true) := by
  unfold InBounds; decide

/-- R284: both handlers write, each frame right after its own `Invoke`; on a dropped frame the generic one still does. -/
theorem test_generic_writes :
    got (exec (.dispatch [42]) { gen with tblCap := 47, tbl := [42], hostCalls := [[.write 6 [2]], [.write 7 []]] })
      (fun t => t.events) =
      some [.invoke .generic 42 [], .tx [254, 2, 6, 2, 255], .invoke .user 42 [], .tx [254, 1, 7, 255]] ∧
    got (exec (.dispatch [42]) { gen with hostCalls := [[.write 6 [2]], [.write 7 []]] })
      (fun t => (t.events, t.hostCalls)) =
      some ([.invoke .generic 42 [], .tx [254, 2, 6, 2, 255]], [[.write 7 []]]) := by decide

/-- HandlerWriteFaultEndsTheStep: after two writes within the bounds a payload one byte too long; a radix of 0 with
nothing before it, the longest payload and address field; the generic handler and the user handler. -/
theorem witness_write_fault :
    ((planOf plan ++ .write 5 [1, 2, 3] :: [.feed 1]) :: [] = [[.write 5 [1, 2], .write 9 [], .write 5 [1, 2, 3], .feed 1]] ∧
      InBounds (cfg 253 200 false) plan ∧ 255 < (cfg 253 200 false).cfgAlen.toNat + [(1 : Byte), 2, 3].length) ∧
    (InBounds (cfg 253 0 false) [] ∧ (cfg 253 0 false).cfgAlen.toNat + [(1 : Byte), 2].length ≤ 255 ∧
      (cfg 253 0 false).cfgAfac = 0) ∧
    (gen.genSet = true ∧ gen.cfgAlen.toNat ≤ [(42 : Byte)].length ∧ addrFits gen.build 42 = true) ∧
    (State.reset.genSet = false ∧ ({ State.reset with tblCap := 47, tbl := [42] } : State).userSlot 42 = true) := by
  unfold InBounds; decide

/-- HandlersMayNotReenter: a plan that writes and then feeds, in the callback of each error, in the first handler and in
the user handler behind a generic one that writes. -/
theorem witness_reenter : (∀ a p, HostTx.feed 1 ≠ .write a p) ∧ InBounds gen plan ∧
    (({ gen with errcbSet := true, hostCalls := [planOf plan ++ [.feed 1]] } : State).hostCalls =
      (planOf plan ++ .feed 1 :: []) :: [] ∧ gen.cfgAlen.toNat ≤ [(42 : Byte)].length ∧
      addrFits gen.build (decodeAddress [42] 1 200) = true) ∧
    ((rx 2 [5]).rxBidx ≠ (rx 2 [5]).rxMsize.toNat ∧ (rx 2 [5]).rxBidx ≤ (rx 2 [5]).rxCap) ∧
    (State.reset.rxBidx = State.reset.rxMsize.toNat ∧ State.reset.rxBidx < State.reset.cfgAlen.toNat ∧
      ([] : List Byte).length < State.reset.cfgAlen.toNat) ∧
    (({ gen with tblCap := 47, tbl := [42] } : State).userSlot 42 = true ∧
      ({ gen with hostCalls := [planOf [(7, [])], planOf plan ++ [.feed 1]] } : State).hostCalls =
        planOf [(7, [])] :: (planOf plan ++ .feed 1 :: []) :: []) := by
  unfold InBounds
  exact ⟨by simp, by decide, by decide, by decide, by decide, by decide⟩

/-- R257, R282, R283: a callback that writes and then feeds; a user handler that registers after a generic one wrote. -/
theorem test_reenter_after_write :
    refusalOf (exec .rxStop { rx 2 [5] with errcbSet := true, hostCalls := [[.write 6 [2], .feed 1]] }) =
      some (.insideHandler (.feed 1)) ∧
    refusalOf (exec (.dispatch [42]) { gen with
      tblCap := 47, tbl := [42], hostCalls := [[.write 6 [2]], [.write 7 [], .register 3]] }) =
      some (.insideHandler (.register 3)) := by decide

/-- ConfigurationChangesOnlyThroughItsCommand: a transaction of the first clause, and each register changed by its frame. -/
theorem witness_configuration :
    (HostTx.feed 9 ≠ .reset ∧ HostTx.feed 9 ≠ .feed Config.stopByte) ∧
    got (exec (.dispatch [0, 3]) State.reset) (fun t => t.cfgAlen) = some 3 ∧
    got (exec (.dispatch [1, 10]) State.reset) (fun t => t.cfgAfac) = some 10 ∧
    got (exec (.dispatch [8, 1]) State.reset) (fun t => t.cfgLogen) = some true := by decide

/-- HiddenCapacitiesAreUnobservable: two states that meet the invariant and differ in both capacities. -/
theorem witness_capacities : Inv busy ∧ Inv { busy with rxCap := 32, tblCap := 8 } ∧
    busy.build.bufCapMax = none ∧ DifferInCapacity busy { busy with rxCap := 32, tblCap := 8 } :=
  ⟨witness_inv_busy, inv_of_checks 0 (by decide) (by decide) (by decide) (by decide), rfl, rfl⟩

end Sys2Proof.Tests
end

section
/-! PROOFS of the encoding family (30_encoding.md R94, R98): the primary opcode map, case by case, its tie to `FEED`, and
what `RX.LEN` does. -/

namespace Sys2Proof.Machine

/-! ## The primary opcode map (R94) -/

@[simp] theorem decodeByte_startByte (known : Bool) : decodeByte known Config.startByte = .rxStart := if_pos rfl

@[simp] theorem decodeByte_stopByte (known : Bool) : decodeByte known Config.stopByte = .rxStop := by
  have hne : Config.stopByte ≠ Config.startByte := by decide
  rw [decodeByte, if_neg hne, if_pos rfl]

theorem decodeByte_of_not_sentinel {b : Byte} (hstart : b ≠ Config.startByte) (hstop : b ≠ Config.stopByte)
    (known : Bool) : decodeByte known b = if known then .rxData b else .rxLen b := by
  rw [decodeByte, if_neg hstart, if_neg hstop]

theorem lenKnown_eq_false_iff {s : State} : s.lenKnown = false ↔ s.rxMsize = 0 := by
  rw [← Bool.not_eq_true, lenKnown_iff, not_not]

/-- `FEED` performs the operation that the opcode map selects: its four branches are those of `decodeByte`. -/
theorem exec_feed (b : Byte) (s : State) : exec (.feed b) s = exec (decodeByte s.lenKnown b) s := by
  change execFeed b s = _
  unfold execFeed decodeByte
  split_ifs <;> rfl

/-- Settles O6: `FEED` is the opcode map's operation (`exec_feed`), and the byte and `RX_MSIZE` fix the map's row. -/
theorem feedSelectsOneReceiveOperation : Obligations.FeedSelectsOneReceiveOperation := by
  intro b s
  refine ⟨?start, ?stop, ?len, ?data, exec_feed b s⟩
  case start =>
    rintro rfl
    exact (exec_feed _ s).trans (congrArg (exec · s) (decodeByte_startByte _))
  case stop =>
    rintro rfl
    exact (exec_feed _ s).trans (congrArg (exec · s) (decodeByte_stopByte _))
  case len =>
    intro hstart hstop hsize
    rw [exec_feed, decodeByte_of_not_sentinel hstart hstop, lenKnown_eq_false_iff.2 hsize, if_neg Bool.false_ne_true]
  case data =>
    intro hstart hstop hsize
    rw [exec_feed, decodeByte_of_not_sentinel hstart hstop, if_pos (lenKnown_iff.2 hsize)]

/-! ## The length byte (R98, R126) -/

theorem exec_rxLen (b : Byte) (s : State) : exec (.rxLen b) s = .next (s.latch b) := rfl

/-- Settles O13: the next state is `s.latch b`, which differs from `s` in `RX_MSIZE` only. -/
theorem rxLenLatchesTheByte : Obligations.RxLenLatchesTheByte := by
  intro b s
  refine ⟨s.latch b, exec_rxLen b s, State.latch_rxMsize s b, State.latch_rxBidx s b, State.latch_rxCap s b, ?_⟩
  simp [SameBytes, SameConfig, SameTables, SameHost, SameOutputs]

end Sys2Proof.Machine
end

section
/-! PROOFS of the receive family (40_receive_fsm.md R122, R128, 41_receive_buffer.md R143): `RX.START` is the clear of the
assembler, `RX.DATA` and `BUF.APPEND` are one append, and what clearing and storing leave unchanged. -/

namespace Sys2Proof.Machine

/-! ## START (R122) -/

theorem exec_rxStart (s : State) : exec .rxStart s = .next s.clear := rfl

theorem exec_bufClear (s : State) : exec .bufClear s = .next s.clear := rfl

@[simp] theorem State.clear_clear (s : State) : s.clear.clear = s.clear := rfl

/-- Clearing the assembler keeps everything but the assembler (R122, R140). -/
theorem State.clear_frame (s : State) :
    SameConfig s s.clear ∧ SameTables s s.clear ∧ SameHost s s.clear ∧ SameOutputs s s.clear := by
  simp [SameConfig, SameTables, SameHost, SameOutputs]

/-- Settles O12: START and `BUF.CLEAR` both answer `s.clear`, and a state that is cleared is a fixed point. -/
theorem rxStartDiscardsPartialFrame : Obligations.RxStartDiscardsPartialFrame := by
  intro s
  obtain ⟨hconfig, htables, hhost, hout⟩ := s.clear_frame
  have hagain : exec .rxStart s.clear = .next s.clear := by rw [exec_rxStart, State.clear_clear]
  exact ⟨(exec_rxStart s).trans (exec_bufClear s).symm, s.clear, exec_rxStart s, s.clear_rxMsize, s.clear_rxBidx,
    s.clear_rxCap, hconfig, htables, hhost, hout, hagain⟩

/-! ## The append (R128, R143) -/

theorem exec_rxData (b : Byte) (s : State) : exec (.rxData b) s = bufAppend b s := rfl

theorem exec_bufAppend (b : Byte) (s : State) : exec (.bufAppend b) s = bufAppend b s := rfl

/-- A full buffer that may not grow: the fault of `BUF.GROW` is the append's, before anything is stored (R145). -/
theorem bufAppend_of_exhausted {b : Byte} {s : State} (h : s.rxBidx = s.rxCap)
    (hc : capAllowed s.build (Config.bufGrowFactor * s.rxCap) = false) :
    bufAppend b s = .fault (.bufferExhausted s.events) := by
  rw [bufAppend, if_pos (bufFull_iff.mpr h), bufGrow, if_neg (Bool.eq_false_iff.mp hc), andThen_fault]

/-- A store keeps everything but the buffer and the cursor, the declared length included (R143). -/
theorem State.store_frame (s : State) (b : Byte) :
    (s.store b).rxMsize = s.rxMsize ∧ SameConfig s (s.store b) ∧ SameTables s (s.store b) ∧
      SameHost s (s.store b) ∧ SameOutputs s (s.store b) := by
  simp [SameConfig, SameTables, SameHost, SameOutputs]

/-- Growth touches none of the fields of the store's frame, so a store after growth has the same frame (R144). -/
theorem State.enlarge_store_frame (s : State) (b : Byte) :
    (s.enlarge.store b).rxMsize = s.rxMsize ∧ SameConfig s (s.enlarge.store b) ∧ SameTables s (s.enlarge.store b) ∧
      SameHost s (s.enlarge.store b) ∧ SameOutputs s (s.enlarge.store b) := s.enlarge.store_frame b

/-- The stored byte is read back at the cursor. -/
theorem State.read_store_cursor {s : State} (hm : s.rxBuf.wf = true) (b : Byte) :
    (s.store b).rxBuf.read s.rxBidx = b := Memory.read_write_same hm s.rxBidx b

/-- Every byte off the cursor survives a store. -/
theorem State.read_store_other {s : State} {a : Nat} (b : Byte) (h : a ≠ s.rxBidx) :
    (s.store b).rxBuf.read a = s.rxBuf.read a := Memory.read_write_other b h

/-- Growth keeps every byte below the old capacity (R144). -/
theorem State.read_enlarge_of_lt {s : State} {a : Nat} (h : a < s.rxCap) :
    s.enlarge.rxBuf.read a = s.rxBuf.read a := Memory.read_below_lt h

theorem State.wf_enlarge {s : State} (hm : s.rxBuf.wf = true) : s.enlarge.rxBuf.wf = true :=
  Memory.wf_below hm s.rxCap

/-- Settles O16: both operations are `bufAppend b`. With room it stores into `s`; into a full buffer it stores into
`s.enlarge`, whose cursor is that of `s` and whose bytes below the cursor are those of `s`; where growth is not allowed
it is the fault of `BUF.GROW`. -/
theorem appendStoresAtTheCursor : Obligations.AppendStoresAtTheCursor := by
  intro i b s hi hm
  have happend : exec i s = bufAppend b s := by
    rcases hi with rfl | rfl
    · exact exec_rxData b s
    · exact exec_bufAppend b s
  rw [happend]
  refine ⟨?room, ?full, ?exhausted⟩
  case room =>
    intro hroom
    exact ⟨s.store b, bufAppend_of_room hroom, State.read_store_cursor hm b, fun a ha => State.read_store_other b ha,
      s.store_rxBidx b, s.store_rxCap b, s.store_frame b⟩
  case full =>
    intro hfull hpos hallowed
    have hkept : ∀ a, a < s.rxBidx → (s.enlarge.store b).rxBuf.read a = s.rxBuf.read a := fun a ha =>
      (State.read_store_other (s := s.enlarge) b (Nat.ne_of_lt ha)).trans (State.read_enlarge_of_lt (hfull ▸ ha))
    exact ⟨s.enlarge.store b, bufAppend_of_full hfull hpos hallowed, State.read_store_cursor (State.wf_enlarge hm) b,
      hkept, s.enlarge.store_rxBidx b, s.enlarge.store_rxCap b, s.enlarge_store_frame b⟩
  case exhausted =>
    intro hfull hrefused
    exact bufAppend_of_exhausted hfull hrefused

end Sys2Proof.Machine
end

section
/-! PROOFS of the buffer family (41_receive_buffer.md R147): `BUF.SNAPSHOT` returns the declared body and changes nothing
else. -/

namespace Sys2Proof.Machine

/-- Returning a value changes no state of the block and emits nothing (log 4). -/
theorem State.answer_frame (s : State) (v : Value) :
    SameReceive s (s.answer v) ∧ SameConfig s (s.answer v) ∧ SameTables s (s.answer v) ∧ SameHost s (s.answer v) ∧
      (s.answer v).events = s.events := by
  simp [SameReceive, SameBytes, SameConfig, SameTables, SameHost]

@[simp] theorem bodyBytes_length (s : State) (n : Nat) : (bodyBytes s n).length = n :=
  Memory.readN_length s.rxBuf 0 n

theorem bodyBytes_getElem? (s : State) {n i : Nat} (h : i < n) : (bodyBytes s n)[i]? = some (s.rxBuf.read i) :=
  (Memory.readN_getElem? s.rxBuf h).trans (by rw [Nat.zero_add])

theorem exec_bufSnapshot (s : State) : exec .bufSnapshot s =
    memRead 0 s.rxMsize.toNat s fun frame => .next (s.answer (.bytes frame)) := rfl

/-- A declared body within the buffer is what `BUF.SNAPSHOT` returns (R147). -/
theorem exec_bufSnapshot_of_le {s : State} (h : s.rxMsize.toNat ≤ s.rxCap) :
    exec .bufSnapshot s = .next (s.answer (.bytes (bodyBytes s s.rxMsize.toNat))) :=
  (exec_bufSnapshot s).trans (memRead_of_le ((Nat.zero_add _).trans_le h) _)

/-- Settles O26: the next state is `s` with the body as the returned value, and `State.answer` changes nothing else. -/
theorem snapshotReturnsTheBody : Obligations.SnapshotReturnsTheBody := by
  intro s hcap
  exact ⟨s.answer (.bytes (bodyBytes s s.rxMsize.toNat)), bodyBytes s s.rxMsize.toNat, exec_bufSnapshot_of_le hcap,
    s.answer_ret _, bodyBytes_length s _, fun _ hi => bodyBytes_getElem? s hi, s.answer_frame _⟩

end Sys2Proof.Machine
end

section
/-! PROOFS of the codec family (42_address_codec.md R156, R157, R158, R160): what `ENCODE` and `DECODE` answer, the digits
`ENCODE` writes and loses, the sum `DECODE` computes, and radix 1. -/

namespace Sys2Proof.Machine

/-! ## What the two operations answer -/

theorem exec_encode (a w f : Nat) (s : State) :
    exec (.encode a w f) s = withEncoded a w f s fun bs => .next (s.answer (.bytes bs)) := rfl

theorem exec_decode (bytes : List Byte) (w f : Nat) (s : State) :
    exec (.decode bytes w f) s = withDecoded bytes w f s fun a => .next (s.answer (.nat a)) := rfl

/-- In every radix of 1 or more `ENCODE` returns the field and changes nothing else (R156). -/
theorem exec_encode_of_pos {f : Nat} (hf : 0 < f) (a w : Nat) (s : State) :
    exec (.encode a w f) s = .next (s.answer (.bytes (encodeField a w f))) :=
  (exec_encode a w f s).trans (withEncoded_of_pos hf)

theorem exec_encode_radix_zero (a w : Nat) (s : State) :
    exec (.encode a w 0) s = .fault (.encodeRadixZero s.events) :=
  (exec_encode a w 0 s).trans (if_pos rfl)

/-- A field of `w` bytes whose address fits is what `DECODE` returns, and nothing else changes (R158, R164). -/
theorem exec_decode_of_fits {bytes : List Byte} {w f : Nat} {s : State} (hl : w ≤ bytes.length)
    (hf : addrFits s.build (decodeAddress bytes w f) = true) :
    exec (.decode bytes w f) s = .next (s.answer (.nat (decodeAddress bytes w f))) :=
  (exec_decode bytes w f s).trans (withDecoded_of_fits hl hf _)

/-! ## The digits (R156, R157) -/

/-- A digit that a byte holds stands at its index of the encoded field, whatever the other digits. -/
theorem encodeField_getElem?_toNat {a w f i : Nat} (hi : i < w) (hd : a / f ^ (w - 1 - i) % f < 256) :
    (encodeField a w f)[i]?.map BitVec.toNat = some (a / f ^ (w - 1 - i) % f) := by
  rw [encodeField, digitField_getElem? (encodeDigits_getElem? a w f hi) hd, Option.map_some, BitVec.toNat_ofNat,
    Nat.mod_eq_of_lt hd]

/-- Settles O27: `ENCODE` answers `s` with the encoded field as the returned value; in a radix up to 256 a remainder fits
a byte, so `encodeField_getElem?_toNat` gives every byte. -/
theorem encodeWritesTheDigits : Obligations.EncodeWritesTheDigits := by
  intro a w f s _
  refine ⟨fun hf hfits => ?digits, ?radixZero⟩
  case digits =>
    have hdigit : ∀ i, i < w → a / f ^ (w - 1 - i) % f < 256 := by
      rcases hfits with hle | hfits
      · exact fun i _ => (Nat.mod_lt _ hf).trans_le hle
      · exact hfits
    exact ⟨s.answer (.bytes (encodeField a w f)), encodeField a w f, exec_encode_of_pos hf a w s, s.answer_ret _,
      encodeField_length a w f, fun i hi => encodeField_getElem?_toNat hi (hdigit i hi), s.answer_frame _⟩
  case radixZero =>
    rintro rfl
    exact exec_encode_radix_zero a w s

/-- The byte of a digit, the free one included, depends on the address below `f^w` only (log 25). -/
theorem digitByte_mod (a w f k d : Nat) : digitByte (a % f ^ w) w f k d = digitByte a w f k d := by
  rw [digitByte, Nat.mod_mod, digitByte]

theorem digitField_mod (a w f : Nat) (ds : List Nat) : digitField (a % f ^ w) w f ds = digitField a w f ds := by
  induction ds with
  | nil => rfl
  | cons d ds ih => rw [digitField, digitField, digitByte_mod, ih]

theorem encodeField_mod (a w f : Nat) : encodeField (a % f ^ w) w f = encodeField a w f := by
  rw [encodeField, encodeField, encodeDigits_mod, digitField_mod]

/-- Settles O29: both calls return the same field (`encodeField_mod`). -/
theorem encodeTruncatesHighDigits : Obligations.EncodeTruncatesHighDigits := by
  intro a w f s hf
  rw [exec_encode_of_pos hf, exec_encode_of_pos hf, encodeField_mod]

/-! ## The weighted sum (R158) -/

/-- Settles O30: the Horner form of `DECODE` is the weighted sum (`decodeAddress_eq_sum`), and `State.answer` changes
nothing else. -/
theorem decodeIsTheWeightedSum : Obligations.DecodeIsTheWeightedSum := by
  intro bytes w f n s _ hl hn hfits
  obtain rfl : n = decodeAddress bytes w f := hn.trans (decodeAddress_eq_sum hl f).symm
  exact ⟨s.answer (.nat (decodeAddress bytes w f)), exec_decode_of_fits hl hfits, s.answer_ret _, s.answer_frame _⟩

/-! ## Radix 1 (R160) -/

/-- In radix 1 every digit is 0. -/
theorem encodeDigits_radix_one (a w : Nat) : encodeDigits a w 1 = List.replicate w 0 :=
  List.eq_replicate_iff.mpr
    ⟨encodeDigits_length a w 1, fun _ hd => Nat.lt_one_iff.mp (encodeDigits_lt Nat.one_pos hd)⟩

theorem encodeField_radix_one (a w : Nat) : encodeField a w 1 = List.replicate w 0 := by
  have hfits : ∀ d ∈ encodeDigits a w 1, d < 256 := fun d hd => by have := encodeDigits_lt Nat.one_pos hd; omega
  rw [encodeField_of_fits hfits, encodeDigits_radix_one]
  exact List.map_replicate

/-- In radix 1 every weight is 1, so decoding is the plain sum of the bytes. -/
theorem decodeAddress_radix_one (bytes : List Byte) (w : Nat) :
    decodeAddress bytes w 1 = ((bytes.take w).map BitVec.toNat).sum := by
  simp only [decodeAddress, Nat.mul_one, List.sum_eq_foldl, List.foldl_map]

/-- Settles O32: `ENCODE` returns `encodeField a w 1`, which is zeros, and `DECODE` the sum of `decodeAddress_radix_one`. -/
theorem radixOneIsUnary : Obligations.RadixOneIsUnary := by
  refine ⟨fun a w s _ => ?encode, fun bytes w s _ hl hfits => ?decode⟩
  case encode =>
    rw [← encodeField_radix_one a w]
    exact ⟨_, exec_encode_of_pos Nat.one_pos a w s, s.answer_ret _⟩
  case decode =>
    rw [← decodeAddress_radix_one] at hfits ⊢
    exact ⟨_, exec_decode_of_fits hl hfits, s.answer_ret _⟩

end Sys2Proof.Machine
end

section
/-! PROOFS of the frame writer's family (43_frame_writer.md R171, R172): the frame's length, what `WRITE` answers within
the bounds of `LEN` and the radix, and its two faults in their order. -/

namespace Sys2Proof.Machine

/-- START, `LEN` and STOP around the address field and the payload (R171). -/
theorem encodeWire_length (w f a : Nat) (p : List Byte) : (encodeWire w f a p).length = w + p.length + 3 := by
  simp only [encodeWire, digitBytes, List.length_append, List.length_map, encodeDigits_length, List.length_cons,
    List.length_nil]
  omega

/-- Emitting an event changes the event list and nothing else (log 2). -/
theorem State.emit_frame (s : State) (e : Event) :
    (s.emit e).ret = s.ret ∧ SameReceive s (s.emit e) ∧ SameConfig s (s.emit e) ∧ SameTables s (s.emit e) ∧
      SameHost s (s.emit e) := by
  simp [SameReceive, SameBytes, SameConfig, SameTables, SameHost]

theorem exec_write (a : Nat) (p : List Byte) (s : State) : exec (.write a p) s = writeFrame a p s := rfl

/-- The length check comes first, whatever the radix (R172). -/
theorem writeFrame_of_too_long {p : List Byte} {s : State} (hl : 255 < s.cfgAlen.toNat + p.length) (a : Nat) :
    writeFrame a p s = .fault (.txLengthOverflow s.events) := if_pos hl

/-- A payload that fits reaches the encoding, which faults in radix 0 (R161). -/
theorem writeFrame_of_radix_zero {p : List Byte} {s : State} (hl : s.cfgAlen.toNat + p.length ≤ 255)
    (hf : s.cfgAfac = 0) (a : Nat) : writeFrame a p s = .fault (.encodeRadixZero s.events) := by
  have hradix : s.cfgAfac.toNat = 0 := by rw [hf]; rfl
  rw [writeFrame, if_neg (Nat.not_lt.mpr hl), withEncoded, if_pos hradix]

/-- Settles O36: the bytes are `encodeWire` of the configuration, which `writeFrame_of_bounds` emits; each fault is
`writeFrame`'s own. -/
theorem writeSendsOneFrame : Obligations.WriteSendsOneFrame := by
  intro a p bytes s hbytes
  obtain rfl : bytes = encodeWire s.cfgAlen.toNat s.cfgAfac.toNat a p := hbytes
  rw [exec_write]
  refine ⟨?sent, ?tooLong, ?radixZero⟩
  case sent =>
    intro hl hf
    exact ⟨encodeWire_length _ _ a p, s.emit (.tx _), writeFrame_of_bounds hl hf, s.emit_events _, s.emit_frame _⟩
  case tooLong =>
    exact fun hl => writeFrame_of_too_long hl a
  case radixZero =>
    exact fun hl hf => writeFrame_of_radix_zero hl hf a

end Sys2Proof.Machine
end

section
/-! PROOFS of the dispatcher family (44_dispatcher.md R190, R191): which slots are occupied after `REGISTER`, in a table
that has the slot and in one that grows to it, and what `REGISTER` leaves unchanged. -/

namespace Sys2Proof.Machine

/-! ## The two steps of `REGISTER` (R190) -/

/-- A table grown to an address outside it has the same occupied slots: the new ones are empty. -/
theorem State.growTable_userSlot {s : State} {a : Nat} (h : s.tblCap ≤ a) (k : Nat) :
    (s.growTable a).userSlot k = s.userSlot k := by
  have hcap : k < s.tblCap → k < a + Config.tblGrowMargin := fun hk => Nat.lt_add_right _ (hk.trans_le h)
  rw [Bool.eq_iff_iff, userSlot_iff, userSlot_iff]
  simp only [State.growTable_tblCap, State.growTable_tbl, List.mem_filter, decide_eq_true_eq]
  exact ⟨fun ⟨_, hmem, hk⟩ => ⟨hk, hmem⟩, fun ⟨hk, hmem⟩ => ⟨hcap hk, hmem, hk⟩⟩

theorem State.occupy_userSlot_self {s : State} {a : Nat} (h : a < s.tblCap) : (s.occupy a).userSlot a = true :=
  userSlot_iff.mpr ⟨h, mem_insertSlot.mpr (.inl rfl)⟩

theorem State.occupy_userSlot_other (s : State) {a k : Nat} (h : k ≠ a) : (s.occupy a).userSlot k = s.userSlot k := by
  rw [Bool.eq_iff_iff, userSlot_iff, userSlot_iff, State.occupy_tbl, mem_insertSlot, or_iff_right h, State.occupy_tblCap]

/-! ## `REGISTER` -/

theorem exec_register (a : Nat) (s : State) : exec (.register a) s = .next (s.registerSlot a) := rfl

theorem State.registerSlot_of_lt {s : State} {a : Nat} (h : a < s.tblCap) : s.registerSlot a = s.occupy a :=
  if_neg (Nat.not_le.mpr h)

theorem State.registerSlot_of_le {s : State} {a : Nat} (h : s.tblCap ≤ a) :
    s.registerSlot a = (s.growTable a).occupy a := if_pos h

/-- `REGISTER` keeps everything but the user table (R190). -/
theorem State.registerSlot_frame (s : State) (a : Nat) :
    (s.registerSlot a).genSet = s.genSet ∧ (s.registerSlot a).errcbSet = s.errcbSet ∧ (s.registerSlot a).bi = s.bi ∧
      SameReceive s (s.registerSlot a) ∧ SameConfig s (s.registerSlot a) ∧ SameHost s (s.registerSlot a) ∧
      SameOutputs s (s.registerSlot a) := by
  simp [SameReceive, SameBytes, SameConfig, SameHost, SameOutputs]

/-- The registered slot is occupied: the table has it, or has it once grown. -/
theorem State.registerSlot_userSlot_self (s : State) (a : Nat) : (s.registerSlot a).userSlot a = true := by
  rcases Nat.lt_or_ge a s.tblCap with hin | hout
  · rw [State.registerSlot_of_lt hin]
    exact State.occupy_userSlot_self hin
  · rw [State.registerSlot_of_le hout]
    exact State.occupy_userSlot_self (Nat.lt_add_of_pos_right (by decide))

theorem State.registerSlot_userSlot_other (s : State) {a k : Nat} (h : k ≠ a) :
    (s.registerSlot a).userSlot k = s.userSlot k := by
  rcases Nat.lt_or_ge a s.tblCap with hin | hout
  · rw [State.registerSlot_of_lt hin, State.occupy_userSlot_other s h]
  · rw [State.registerSlot_of_le hout, State.occupy_userSlot_other _ h, State.growTable_userSlot hout]

theorem State.registerSlot_tblCap_of_lt {s : State} {a : Nat} (h : a < s.tblCap) :
    (s.registerSlot a).tblCap = s.tblCap := by
  rw [State.registerSlot_of_lt h, State.occupy_tblCap]

theorem State.registerSlot_tblCap_of_le {s : State} {a : Nat} (h : s.tblCap ≤ a) :
    (s.registerSlot a).tblCap = a + 5 := by
  rw [State.registerSlot_of_le h, State.occupy_tblCap, State.growTable_tblCap, Config.tblGrowMargin]

/-- Settles O40: the next state is `s.registerSlot a`, which occupies the slot of a table that has it, grown to `a + 5`
slots first where it does not (`State.growTable_userSlot`: growing occupies none). -/
theorem registerOccupiesTheSlot : Obligations.RegisterOccupiesTheSlot := by
  intro a s
  obtain ⟨hgen, herrcb, hbi, hreceive, hconfig, hhost, hout⟩ := s.registerSlot_frame a
  exact ⟨s.registerSlot a, exec_register a s, s.registerSlot_userSlot_self a, fun _ => s.registerSlot_userSlot_other,
    State.registerSlot_tblCap_of_lt, State.registerSlot_tblCap_of_le, hgen, herrcb, hbi, hreceive, hconfig, hhost, hout⟩

end Sys2Proof.Machine
end

section
/-! PROOFS of the built-in commands (45_builtin_commands.md R201 to R203): what each configuration command answers, which
payloads ask for logging, and that the reserved commands answer the state they ran in. -/

namespace Sys2Proof.Machine

/-! ## `CMD1` (R201) -/

theorem exec_cmd1_nil (a : Nat) (s : State) : exec (.cmd1 a []) s = .next s := rfl

theorem exec_cmd1_cons (a : Nat) (v : Byte) (rest : List Byte) (s : State) :
    exec (.cmd1 a (v :: rest)) s = .next (s.setAfac v) := rfl

/-- Setting the address factor changes `CFG_AFAC` and nothing else. -/
theorem State.setAfac_frame (s : State) (v : Byte) :
    (s.setAfac v).cfgAlen = s.cfgAlen ∧ (s.setAfac v).cfgLogen = s.cfgLogen ∧ SameReceive s (s.setAfac v) ∧
      SameTables s (s.setAfac v) ∧ SameHost s (s.setAfac v) ∧ SameOutputs s (s.setAfac v) := by
  simp [SameReceive, SameBytes, SameTables, SameHost, SameOutputs]

/-- Settles O42: an empty payload answers `s`; a first byte `v`, whatever it is, answers `s.setAfac v`. -/
theorem commandOneSetsAddressFactor : Obligations.CommandOneSetsAddressFactor := fun a s =>
  ⟨exec_cmd1_nil a s, fun v rest => ⟨s.setAfac v, exec_cmd1_cons a v rest s, s.setAfac_cfgAfac v, s.setAfac_frame v⟩⟩

/-! ## The reserved commands (R202) -/

/-- Settles O43: each of the six commands is the one shared `reservedNoOp`, which answers the state it is given. -/
theorem reservedCommandsChangeNothing : Obligations.ReservedCommandsChangeNothing := by
  intro i a p s hi
  have hnoop : exec i s = reservedNoOp s := by
    simp only [List.mem_cons, List.not_mem_nil, or_false] at hi
    rcases hi with rfl | rfl | rfl | rfl | rfl | rfl <;> rfl
  rw [hnoop, reservedNoOp]

/-! ## `CMD8` (R203) -/

theorem exec_cmd8 (a : Nat) (p : List Byte) (s : State) :
    exec (.cmd8 a p) s = .next (s.setLogen (logRequest p)) := rfl

/-- Logging is asked for by a first byte 1 alone: an empty payload asks for none. -/
theorem logRequest_iff {p : List Byte} : logRequest p = true ↔ ∃ rest, p = 1 :: rest := by
  rw [logRequest, firstByte, beq_iff_eq, List.head?_eq_some_iff]

/-- Setting the logging flag changes `CFG_LOGEN` and nothing else. -/
theorem State.setLogen_frame (s : State) (b : Bool) :
    (s.setLogen b).cfgAlen = s.cfgAlen ∧ (s.setLogen b).cfgAfac = s.cfgAfac ∧ SameReceive s (s.setLogen b) ∧
      SameTables s (s.setLogen b) ∧ SameHost s (s.setLogen b) ∧ SameOutputs s (s.setLogen b) := by
  simp [SameReceive, SameBytes, SameTables, SameHost, SameOutputs]

/-- Settles O44: the next state has `logRequest p` as its logging flag, true of the payloads of `logRequest_iff`. -/
theorem commandEightSetsLogging : Obligations.CommandEightSetsLogging := by
  intro a p s
  refine ⟨s.setLogen (logRequest p), exec_cmd8 a p s, ?_, s.setLogen_frame _⟩
  rw [State.setLogen_cfgLogen]
  exact logRequest_iff

end Sys2Proof.Machine
end


section
/-! PROOFS of the host operations (46_host_operations.md R222, R223): what `SETGENERIC` and `SETERRCB` change, and that no
other transaction but `RESET` removes the callback, as no frame reaches what the owner registered. -/

namespace Sys2Proof.Machine

/-! ## The two setters (R222, R223) -/

theorem exec_setGeneric (on : Bool) (s : State) : exec (.setGeneric on) s = .next (s.setGen on) := rfl

/-- Setting or clearing the generic handler changes `GEN_SET` and nothing else. -/
theorem State.setGen_frame (s : State) (on : Bool) :
    (s.setGen on).errcbSet = s.errcbSet ∧ (s.setGen on).tblCap = s.tblCap ∧ (s.setGen on).tbl = s.tbl ∧
      (s.setGen on).bi = s.bi ∧ SameReceive s (s.setGen on) ∧ SameConfig s (s.setGen on) ∧
      SameHost s (s.setGen on) ∧ SameOutputs s (s.setGen on) := by
  simp [SameReceive, SameBytes, SameConfig, SameHost, SameOutputs]

/-- Settles O46: the next state is `s.setGen on`, which differs from `s` in `GEN_SET` only. -/
theorem setGenericSetsOrClears : Obligations.SetGenericSetsOrClears := fun on s =>
  ⟨s.setGen on, exec_setGeneric on s, s.setGen_genSet on, s.setGen_frame on⟩

theorem exec_setErrcb (s : State) : exec .setErrcb s = .next s.setErr := rfl

/-- Registering the callback changes `ERRCB_SET` and nothing else. -/
theorem State.setErr_frame (s : State) :
    s.setErr.genSet = s.genSet ∧ s.setErr.tblCap = s.tblCap ∧ s.setErr.tbl = s.tbl ∧ s.setErr.bi = s.bi ∧
      SameReceive s s.setErr ∧ SameConfig s s.setErr ∧ SameHost s s.setErr ∧ SameOutputs s s.setErr := by
  simp [SameReceive, SameBytes, SameConfig, SameHost, SameOutputs]

/-! ## What a received byte cannot reach: the handlers and tables -/

theorem SameTables.trans {s t u : State} (hst : SameTables s t) (htu : SameTables t u) : SameTables s u := by
  obtain ⟨hgen, herrcb, hcap, htbl, hbi⟩ := htu
  obtain ⟨hgen', herrcb', hcap', htbl', hbi'⟩ := hst
  exact ⟨hgen.trans hgen', herrcb.trans herrcb', hcap.trans hcap', htbl.trans htbl', hbi.trans hbi'⟩

theorem State.emit_sameTables (s : State) (e : Event) : SameTables s (s.emit e) := by simp [SameTables]

theorem callHost_sameTables {s t : State} (h : callHost s = .next t) : SameTables s t := by
  obtain ⟨txs, rfl⟩ := callHost_eq_next h
  exact ⟨rfl, rfl, rfl, rfl, rfl⟩

theorem raiseError_sameTables {e : ErrorRec} {s t : State} (h : raiseError e s = .next t) : SameTables s t := by
  obtain ⟨calls, txs, rfl⟩ := raiseError_eq_next h
  exact ⟨rfl, rfl, rfl, rfl, rfl⟩

theorem invokeGeneric_sameTables {a : Nat} {p : List Byte} {s t : State} (h : invokeGeneric a p s = .next t) :
    SameTables s t := by
  obtain ⟨calls, txs, rfl⟩ := invokeGeneric_eq_next h
  exact ⟨rfl, rfl, rfl, rfl, rfl⟩

/-- A built-in writes a configuration register or emits; neither is a table. -/
theorem runBuiltin_sameTables {a : Nat} {p : List Byte} {s t : State} (h : runBuiltin a p s = .next t) :
    SameTables s t := by
  obtain rfl | ⟨v, -, -, rfl⟩ | ⟨v, -, -, rfl⟩ | ⟨-, rfl⟩ | ⟨-, bs, rfl⟩ := runBuiltin_eq_next h <;>
    exact ⟨rfl, rfl, rfl, rfl, rfl⟩

theorem route_sameTables {a : Nat} {p : List Byte} {s t : State} (h : route a p s = .next t) : SameTables s t := by
  obtain ⟨-, hcall⟩ | ⟨-, -, hrun⟩ | ⟨-, -, rfl⟩ := route_eq_next h
  · exact (s.emit_sameTables _).trans (callHost_sameTables hcall)
  · exact (s.emit_sameTables _).trans (runBuiltin_sameTables hrun)
  · exact ⟨rfl, rfl, rfl, rfl, rfl⟩

/-- No frame registers or removes a handler: a dispatch keeps the handlers and tables. -/
theorem execDispatch_sameTables {frame : List Byte} {s t : State} (h : execDispatch frame s = .next t) :
    SameTables s t := by
  obtain ⟨-, hraise⟩ | ⟨-, -, hresolve⟩ := execDispatch_eq_next h
  · exact raiseError_sameTables hraise
  · obtain ⟨u, hgeneric, hroute⟩ := andThen_eq_next hresolve
    exact (invokeGeneric_sameTables hgeneric).trans (route_sameTables hroute)

theorem State.clear_sameTables (s : State) : SameTables s s.clear := by simp [SameTables]

theorem bufAppend_sameTables {b : Byte} {s t : State} (h : bufAppend b s = .next t) : SameTables s t := by
  obtain ⟨-, rfl⟩ | ⟨-, -, -, rfl⟩ := bufAppend_eq_next h
  · obtain ⟨-, -, htables, -⟩ := s.store_frame b
    exact htables
  · obtain ⟨-, -, htables, -⟩ := s.enlarge_store_frame b
    exact htables

/-- STOP clears the assembler, then dispatches the frame or raises the mismatch. -/
theorem execRxStop_sameTables {s t : State} (h : execRxStop s = .next t) : SameTables s t := by
  unfold execRxStop at h
  split_ifs at h
  · obtain ⟨-, hdispatch⟩ := memRead_eq_next h
    exact (s.clear_sameTables.trans (s.clear.emit_sameTables _)).trans (execDispatch_sameTables hdispatch)
  · obtain ⟨-, hraise⟩ := memRead_eq_next h
    exact s.clear_sameTables.trans (raiseError_sameTables hraise)

/-- Each of the four receive operations that a byte selects keeps the handlers and tables (R94, R120). -/
theorem execFeed_sameTables {b : Byte} {s t : State} (h : execFeed b s = .next t) : SameTables s t := by
  unfold execFeed at h
  split_ifs at h
  · cases h
    exact s.clear_sameTables
  · exact execRxStop_sameTables h
  · exact bufAppend_sameTables h
  · cases h
    exact ⟨rfl, rfl, rfl, rfl, rfl⟩

/-! ## The callback stays (R223) -/

/-- Of the host's transactions only `RESET` removes the callback. -/
theorem exec_decodeTx_keeps_errcbSet {tx : HostTx} {s t : State} (hset : s.errcbSet = true) (htx : tx ≠ .reset)
    (h : exec (decodeTx tx) s = .next t) : t.errcbSet = true := by
  cases tx with
  | feed b =>
    obtain ⟨-, herrcb, -⟩ := execFeed_sameTables h
    exact herrcb.trans hset
  | write a p =>
    obtain ⟨-, -, rfl⟩ := writeFrame_eq_next h
    exact hset
  | register a =>
    cases h
    exact (s.registerSlot_errcbSet a).trans hset
  | setGeneric on =>
    cases h
    exact hset
  | setErrcb =>
    cases h
    exact s.setErr_errcbSet
  | reset => exact absurd rfl htx

/-- Settles O47: `SETERRCB` answers `s.setErr`, and a step is idle or performs one transaction, which keeps the callback
when it is no `RESET` (`exec_decodeTx_keeps_errcbSet`). -/
theorem setErrcbRegistersTheCallback : Obligations.SetErrcbRegistersTheCallback := by
  refine ⟨fun s => ⟨s.setErr, exec_setErrcb s, s.setErr_errcbSet, s.setErr_frame⟩, ?stays⟩
  case stays =>
    intro s t hset hreset hstep
    obtain ⟨-, rfl⟩ | ⟨tx, later, hpending, hexec⟩ := step_eq_next hstep
    · exact hset
    · have htx : tx ≠ .reset := by rintro rfl; exact hreset (by rw [hpending, List.head?_cons])
      exact exec_decodeTx_keeps_errcbSet (s := { s with hostIn := later }) hset htx hexec

end Sys2Proof.Machine
end

section
/-! PROOFS of the whole machine's layer (44_dispatcher.md R180, R184; 40_receive_fsm.md R120, R124): what each shared
operation can have done when it answers a next state, said once and to the end: the outputs of a host call, the
outcome of a dispatch, and the four things a received byte can do. -/

namespace Sys2Proof.Machine

/-! ## Outputs alone: what a host call can change -/

/-- `t` is `s` after host calls: plans used up and events emitted, nothing else of the block. -/
def State.withOutputs (s : State) (calls : List (List HostTx)) (es : List Event) : State :=
  { s with hostCalls := calls, events := s.events ++ es }

@[simp] theorem State.withOutputs_withOutputs (s : State) (calls calls' : List (List HostTx)) (es es' : List Event) :
    (s.withOutputs calls es).withOutputs calls' es' = s.withOutputs calls' (es ++ es') := by
  simp [State.withOutputs]

theorem State.emit_eq_withOutputs (s : State) (e : Event) : s.emit e = s.withOutputs s.hostCalls [e] := rfl

@[simp] theorem State.withOutputs_events (s : State) (calls : List (List HostTx)) (es : List Event) :
    (s.withOutputs calls es).events = s.events ++ es := rfl

/-- A state with other outputs differs from `s` in its plans and events only. -/
theorem State.withOutputs_frame (s : State) (calls : List (List HostTx)) (es : List Event) :
    (s.withOutputs calls es).ret = s.ret ∧ SameReceive s (s.withOutputs calls es) ∧
      SameConfig s (s.withOutputs calls es) ∧ SameTables s (s.withOutputs calls es) ∧
      PlansLeft s (s.withOutputs calls es) calls :=
  ⟨rfl, ⟨rfl, rfl, rfl, fun _ => rfl⟩, ⟨rfl, rfl, rfl⟩, ⟨rfl, rfl, rfl, rfl, rfl⟩, ⟨rfl, rfl, rfl⟩⟩

/-- An invocation emits its event and then `Tx` events. -/
theorem callHost_emit_eq_next {e : Event} {s t : State} (h : callHost (s.emit e) = .next t) :
    ∃ (calls : List (List HostTx)) (txs : List (List Byte)), t = s.withOutputs calls (e :: txs.map .tx) := by
  obtain ⟨txs, rfl⟩ := callHost_eq_next h
  exact ⟨s.hostCalls.tail, txs, by simp [State.withOutputs, State.emit]⟩

/-! ## What a dispatch can have done -/

/-- The events of step 3: the generic handler's invocation if it is set, and what it wrote. -/
def genericEvents (s : State) (a : Nat) (p : List Byte) (txs : List (List Byte)) : List Event :=
  (if s.genSet then [.invoke .generic a p] else []) ++ txs.map .tx

/-- A resolved frame ended in the user handler, in a built-in run after its event, or in nothing; the generic handler's
events stand before (R184). -/
theorem resolve_eq_next {a : Nat} {p : List Byte} {s t : State} (h : resolve a p s = .next t) :
    ∃ (calls : List (List HostTx)) (txs : List (List Byte)),
      (s.userSlot a = true ∧ ∃ txs' : List (List Byte),
        t = s.withOutputs calls (genericEvents s a p txs ++ .invoke .user a p :: txs'.map .tx)) ∨
      (s.userSlot a = false ∧ s.builtinSlot a = true ∧
        runBuiltin a p (s.withOutputs calls (genericEvents s a p txs ++ [.invoke .builtin a p])) = .next t) ∨
      (s.userSlot a = false ∧ s.builtinSlot a = false ∧ t = s.withOutputs calls (genericEvents s a p txs)) := by
  obtain ⟨u, hgeneric, hroute⟩ := andThen_eq_next h
  obtain ⟨calls, txs, hu⟩ := invokeGeneric_eq_next hgeneric
  obtain rfl : u = s.withOutputs calls (genericEvents s a p txs) := hu
  obtain ⟨huser, hcall⟩ | ⟨huser, hbuiltin, hrun⟩ | ⟨huser, hbuiltin, rfl⟩ := route_eq_next hroute
  · obtain ⟨calls', txs', rfl⟩ := callHost_emit_eq_next hcall
    exact ⟨calls', txs, .inl ⟨huser, txs', State.withOutputs_withOutputs ..⟩⟩
  · rw [State.emit_eq_withOutputs, State.withOutputs_withOutputs] at hrun
    exact ⟨calls, txs, .inr (.inl ⟨huser, hbuiltin, hrun⟩)⟩
  · exact ⟨calls, txs, .inr (.inr ⟨huser, hbuiltin, rfl⟩)⟩

/-- The configuration after a dispatch of payload `p` to `a`: unchanged, or one register written by its own built-in
command, which no user handler shadows (R200, R201, R203). -/
inductive ConfigStep (s : State) (a : Nat) (p : List Byte) (t : State) : Prop
  | same (h : SameConfig s t)
  | alen (v : Byte) (ha : a = 0) (hu : s.userSlot a = false) (hp : p.head? = some v) (h : t.cfgAlen = clampLength v)
      (hf : t.cfgAfac = s.cfgAfac) (hg : t.cfgLogen = s.cfgLogen)
  | afac (v : Byte) (ha : a = 1) (hu : s.userSlot a = false) (hp : p.head? = some v) (h : t.cfgAfac = v)
      (hl : t.cfgAlen = s.cfgAlen) (hg : t.cfgLogen = s.cfgLogen)
  | logen (ha : a = 8) (hu : s.userSlot a = false) (hl : t.cfgAlen = s.cfgAlen) (hf : t.cfgAfac = s.cfgAfac)

/-- What a frame cannot reach: all but the configuration registers, the plans and the events is as it was. -/
def BlockKept (s t : State) : Prop :=
  t = { s with
    cfgAlen := t.cfgAlen, cfgAfac := t.cfgAfac, cfgLogen := t.cfgLogen, hostCalls := t.hostCalls, events := t.events }

theorem State.withOutputs_blockKept (s : State) (calls : List (List HostTx)) (es : List Event) :
    BlockKept s (s.withOutputs calls es) := rfl

theorem BlockKept.trans {s t u : State} (hst : BlockKept s t) (htu : BlockKept t u) : BlockKept s u := by
  unfold BlockKept at *
  rw [htu, hst]

/-- A built-in that runs writes its own register or emits at most one `Tx`. -/
theorem runBuiltin_effect {a : Nat} {p : List Byte} {s t : State} (hu : s.userSlot a = false)
    (h : runBuiltin a p s = .next t) :
    BlockKept s t ∧ ConfigStep s a p t ∧ ∃ txs : List (List Byte), t.events = s.events ++ txs.map .tx := by
  obtain rfl | ⟨v, ha, hp, rfl⟩ | ⟨v, ha, hp, rfl⟩ | ⟨ha, rfl⟩ | ⟨-, bs, rfl⟩ := runBuiltin_eq_next h
  · exact ⟨rfl, .same ⟨rfl, rfl, rfl⟩, [], (List.append_nil _).symm⟩
  · exact ⟨rfl, .alen v ha hu hp rfl rfl rfl, [], (List.append_nil _).symm⟩
  · exact ⟨rfl, .afac v ha hu hp rfl rfl rfl, [], (List.append_nil _).symm⟩
  · exact ⟨rfl, .logen ha hu rfl rfl, [], (List.append_nil _).symm⟩
  · exact ⟨rfl, .same ⟨rfl, rfl, rfl⟩, [bs], rfl⟩

theorem ConfigStep.of_withOutputs {s t : State} {a : Nat} {p : List Byte} {calls : List (List HostTx)}
    {es : List Event} (h : ConfigStep (s.withOutputs calls es) a p t) : ConfigStep s a p t := by
  cases h with
  | same h => exact .same h
  | alen v ha hu hp h hf hg => exact .alen v ha hu hp h hf hg
  | afac v ha hu hp h hl hg => exact .afac v ha hu hp h hl hg
  | logen ha hu hl hf => exact .logen ha hu hl hf

/-! ## Which events report -/

/-- Frames written report no error and are no completed frame. -/
theorem tx_silent {txs : List (List Byte)} : ∀ e ∈ txs.map Event.tx, e.isError = false ∧ e.isFrame = false :=
  List.forall_mem_map.mpr fun _ _ => ⟨rfl, rfl⟩

/-- Nor is an invocation, with the frames its handler wrote. -/
theorem invoke_cons_silent (who : Target) (a : Nat) (p : List Byte) (txs : List (List Byte)) :
    ∀ e ∈ Event.invoke who a p :: txs.map .tx, e.isError = false ∧ e.isFrame = false :=
  List.forall_mem_cons.mpr ⟨⟨rfl, rfl⟩, tx_silent⟩

theorem genericEvents_silent (s : State) (a : Nat) (p : List Byte) (txs : List (List Byte)) :
    ∀ e ∈ genericEvents s a p txs, e.isError = false ∧ e.isFrame = false := by
  unfold genericEvents
  split_ifs
  · exact invoke_cons_silent .generic a p txs
  · exact tx_silent

/-- An error is one event that reports it and no completed frame (R248). -/
theorem raiseError_events {e : ErrorRec} {s t : State} (h : raiseError e s = .next t) :
    ∃ es, t.events = s.events ++ es ∧ es.countP Event.isError ≤ 1 ∧ ∀ e ∈ es, e.isFrame = false := by
  obtain ⟨calls, txs, rfl⟩ := raiseError_eq_next h
  have htx : (txs.map Event.tx).countP Event.isError = 0 :=
    List.countP_eq_zero.mpr fun x hx => Bool.eq_false_iff.mp (tx_silent x hx).1
  refine ⟨_, rfl, ?_, List.forall_mem_cons.mpr ⟨rfl, fun x hx => (tx_silent x hx).2⟩⟩
  rw [List.countP_cons, htx]
  exact Nat.le_refl 1

/-- Steps 3 to 6: the block is kept but for at most one register, and what is emitted reports no error and is no
completed frame. -/
theorem resolve_effect {a : Nat} {p : List Byte} {s t : State} (h : resolve a p s = .next t) :
    BlockKept s t ∧ ConfigStep s a p t ∧
      ∃ es, t.events = s.events ++ es ∧ ∀ e ∈ es, e.isError = false ∧ e.isFrame = false := by
  obtain ⟨calls, txs, ⟨-, txs', rfl⟩ | ⟨huser, -, hrun⟩ | ⟨-, -, rfl⟩⟩ := resolve_eq_next h
  · exact ⟨rfl, .same ⟨rfl, rfl, rfl⟩, _, rfl,
      List.forall_mem_append.mpr ⟨genericEvents_silent s _ _ txs, invoke_cons_silent .user _ _ txs'⟩⟩
  · obtain ⟨hkept, hconfig, txs', hevents⟩ := runBuiltin_effect (s := s.withOutputs ..) huser hrun
    refine ⟨(s.withOutputs_blockKept ..).trans hkept, hconfig.of_withOutputs, _, ?_,
      List.forall_mem_append.mpr ⟨genericEvents_silent s a p txs, invoke_cons_silent .builtin a p txs'⟩⟩
    rw [hevents, State.withOutputs_events, List.append_assoc, List.append_assoc, List.singleton_append]
  · exact ⟨rfl, .same ⟨rfl, rfl, rfl⟩, _, rfl, genericEvents_silent s _ _ txs⟩

theorem raiseError_blockKept {e : ErrorRec} {s t : State} (h : raiseError e s = .next t) :
    BlockKept s t ∧ SameConfig s t := by
  obtain ⟨calls, txs, rfl⟩ := raiseError_eq_next h
  exact ⟨rfl, rfl, rfl, rfl⟩

/-- No frame reaches the receiver, the handlers, the tables or the host's queue. -/
theorem execDispatch_blockKept {frame : List Byte} {s t : State} (h : execDispatch frame s = .next t) :
    BlockKept s t := by
  obtain ⟨-, hraise⟩ | ⟨-, -, hresolve⟩ := execDispatch_eq_next h
  · obtain ⟨hkept, -⟩ := raiseError_blockKept hraise
    exact hkept
  · obtain ⟨hkept, -⟩ := resolve_effect hresolve
    exact hkept

/-- A dispatch changes the configuration only where the frame holds an address field, as the built-in at its address
does. -/
theorem execDispatch_configStep {frame : List Byte} {s t : State} (h : execDispatch frame s = .next t) :
    SameConfig s t ∨ s.cfgAlen.toNat ≤ frame.length ∧
      ConfigStep s (decodeAddress frame s.cfgAlen.toNat s.cfgAfac.toNat) (frame.drop s.cfgAlen.toNat) t := by
  obtain ⟨-, hraise⟩ | ⟨hlen, -, hresolve⟩ := execDispatch_eq_next h
  · obtain ⟨-, hsame⟩ := raiseError_blockKept hraise
    exact .inl hsame
  · rw [decodeAddress_addressField] at hresolve
    obtain ⟨-, hconfig, -⟩ := resolve_effect hresolve
    exact .inr ⟨hlen, hconfig⟩

/-- A dispatch reports at most the runt error and completes no frame of its own. -/
theorem execDispatch_events {frame : List Byte} {s t : State} (h : execDispatch frame s = .next t) :
    ∃ es, t.events = s.events ++ es ∧ es.countP Event.isError ≤ 1 ∧ ∀ e ∈ es, e.isFrame = false := by
  obtain ⟨-, hraise⟩ | ⟨-, -, hresolve⟩ := execDispatch_eq_next h
  · exact raiseError_events hraise
  · obtain ⟨-, -, es, hevents, hkind⟩ := resolve_effect hresolve
    have hnone : es.countP Event.isError = 0 :=
      List.countP_eq_zero.mpr fun e he => Bool.eq_false_iff.mp (hkind e he).1
    exact ⟨es, hevents, hnone.trans_le (Nat.zero_le 1), fun e he => (hkind e he).2⟩

/-! ## What a received byte can have done -/

theorem isSentinel_eq_false_iff {b : Byte} :
    Config.isSentinel b = false ↔ b ≠ Config.startByte ∧ b ≠ Config.stopByte := by
  rw [Config.isSentinel, Bool.or_eq_false_iff, beq_eq_false_iff_ne, beq_eq_false_iff_ne]

/-- STOP dispatched the body of the declared length, or raised the mismatch, on the cleared assembler (R124). -/
theorem execRxStop_eq_next {s t : State} (h : execRxStop s = .next t) :
    s.rxBidx ≤ s.rxCap ∧
    ((s.rxBidx = s.rxMsize.toNat ∧
      execDispatch (bodyBytes s s.rxBidx) (s.clear.emit (.frame (bodyBytes s s.rxBidx))) = .next t) ∨
    (s.rxBidx ≠ s.rxMsize.toNat ∧
      raiseError (.sizeMismatch s.rxMsize.toNat s.rxBidx (bodyBytes s s.rxBidx)) s.clear = .next t)) := by
  unfold execRxStop at h
  split_ifs at h with hc
  · have hsize := complete_iff.mp hc
    obtain ⟨hcap, hdispatch⟩ := memRead_eq_next h
    rw [← hsize] at hcap hdispatch
    exact ⟨by omega, .inl ⟨hsize, hdispatch⟩⟩
  · obtain ⟨hcap, hraise⟩ := memRead_eq_next h
    exact ⟨by omega, .inr ⟨fun hsize => hc (complete_iff.mpr hsize), hraise⟩⟩

/-- The four things a received byte can have done (R94, R120). -/
theorem execFeed_eq_next {b : Byte} {s t : State} (h : execFeed b s = .next t) :
    (b = Config.startByte ∧ t = s.clear) ∨ (b = Config.stopByte ∧ execRxStop s = .next t) ∨
    (Config.isSentinel b = false ∧ s.rxMsize ≠ 0 ∧ bufAppend b s = .next t) ∨
    (Config.isSentinel b = false ∧ s.rxMsize = 0 ∧ t = s.latch b) := by
  unfold execFeed at h
  split_ifs at h with hstart hstop hknown
  · cases h
    exact .inl ⟨hstart, rfl⟩
  · exact .inr (.inl ⟨hstop, h⟩)
  · exact .inr (.inr (.inl ⟨isSentinel_eq_false_iff.mpr ⟨hstart, hstop⟩, lenKnown_iff.mp hknown, h⟩))
  · cases h
    exact .inr (.inr (.inr ⟨isSentinel_eq_false_iff.mpr ⟨hstart, hstop⟩,
      lenKnown_eq_false_iff.mp (Bool.eq_false_iff.mpr hknown), rfl⟩))

end Sys2Proof.Machine
end

section
/-! PROOFS of reset and the invariant (10_state.md R22 to R37, R45, 70_reset_and_hazards.md R270): the reset state,
and that each update of the state, so each transaction of the host, keeps the invariant. -/

namespace Sys2Proof.Machine

/-! ## Reset (R45, R270) -/

theorem exec_reset (s : State) : exec .reset s = .next s.resetAll := rfl

/-- All ten slots of the built-in table are occupied at reset (R37). -/
theorem resetWith_builtinSlot (p : BuildParams) {a : Nat} (h : a < 10) : (State.resetWith p).builtinSlot a = true :=
  builtinSlot_iff.mpr ⟨h, by simp [State.resetWith, h]⟩

theorem resetWith_atReset (p : BuildParams) : AtReset (State.resetWith p) :=
  ⟨⟨rfl, rfl, Memory.read_nil⟩, rfl, rfl, rfl, rfl, rfl, rfl, fun _ => Bool.and_false _, rfl,
    fun _ => resetWith_builtinSlot p⟩

/-- Settles O1: the values of `resetWith` for the default parameters, with nothing pending and nothing emitted. -/
theorem resetStateHasTableValues : Obligations.ResetStateHasTableValues :=
  ⟨resetWith_atReset BuildParams.default, rfl, rfl, rfl, rfl, rfl⟩

/-- Settles O2: `RESET` answers `s.resetAll`, the reset state of `s.build` with the host's side and the outputs of
`s`. -/
theorem resetRestoresEveryRegister : Obligations.ResetRestoresEveryRegister := fun s =>
  ⟨s.resetAll, exec_reset s, resetWith_atReset s.build, ⟨rfl, rfl, rfl⟩, ⟨rfl, rfl⟩⟩

/-- The invariant holds at reset for all legal parameters: `BUF_CAP_MAX` is not below the first capacity (R8). -/
theorem inv_resetWith {p : BuildParams} (hp : p.ok = true) : Inv (State.resetWith p) where
  memory := rfl
  stored := by simp [State.resetWith]
  bytes _ := rfl
  length := rfl
  cursor _ := rfl
  room := Nat.zero_le _
  doubling := ⟨0, rfl⟩
  allowed := by
    simp only [BuildParams.ok, Bool.and_eq_true] at hp
    obtain ⟨⟨⟨hcap, -⟩, -⟩, -⟩ := hp
    exact hcap
  alen := (by decide : Config.alenDefault ≠ 0 ∧ Config.isSentinel Config.alenDefault = false)
  afac := rfl
  slots := List.Pairwise.nil
  table := by simp [State.resetWith]
  builtins _ := resetWith_builtinSlot p
  params := hp

/-- Settles O3: the default parameters are legal. -/
theorem invariantHoldsAtReset : Obligations.InvariantHoldsAtReset := inv_resetWith (by decide)

/-! ## Each update of the state keeps the invariant -/

namespace Inv

variable {s t : State}

/-- The invariant does not read the host's plans, the events or the returned value. -/
theorem withHost (h : Inv s) (hin : List HostTx) (calls : List (List HostTx)) (es : List Event) (v : Option Value) :
    Inv { s with hostIn := hin, hostCalls := calls, events := es, ret := v } := { h with }

theorem emit (h : Inv s) (e : Event) : Inv (s.emit e) := { h with }

theorem resetAll (h : Inv s) : Inv s.resetAll := (inv_resetWith h.params).withHost ..

theorem setGen (h : Inv s) (on : Bool) : Inv (s.setGen on) := { h with }

theorem setErr (h : Inv s) : Inv s.setErr := { h with }

theorem clear (h : Inv s) : Inv s.clear :=
  { h with
    memory := rfl
    stored := by simp
    bytes := fun _ => rfl
    length := rfl
    cursor := fun _ => rfl
    room := Nat.zero_le _ }

/-- A length is latched in the state `WAIT_LEN`, where the cursor is 0. -/
theorem latch (h : Inv s) {b : Byte} (hb : Config.isSentinel b = false) (hm : s.rxMsize = 0) : Inv (s.latch b) :=
  { h with length := hb, cursor := fun _ => h.cursor hm }

/-- A store with a known length and free room. -/
theorem store (h : Inv s) {b : Byte} (hb : Config.isSentinel b = false) (hm : s.rxMsize ≠ 0)
    (hroom : s.rxBidx < s.rxCap) : Inv (s.store b) :=
  { h with
    memory := Memory.wf_write h.memory s.rxBidx b
    stored := fun c hc => by
      rcases Memory.mem_write hc with hold | rfl
      · exact Nat.lt_succ_of_lt (h.stored c hold)
      · exact Nat.lt_succ_self _
    bytes := fun a => by
      by_cases ha : a = s.rxBidx
      · rw [ha, State.read_store_cursor h.memory]
        exact hb
      · rw [State.read_store_other b ha]
        exact h.bytes a
    cursor := fun h0 => absurd h0 hm
    room := hroom }

/-- Growth drops no cell: all lie below the cursor, so below the capacity. -/
theorem enlarge_rxBuf (h : Inv s) : s.enlarge.rxBuf = s.rxBuf :=
  Memory.below_of_lt fun c hc => (h.stored c hc).trans_le h.room

theorem enlarge (h : Inv s) (hcap : capAllowed s.build (Config.bufGrowFactor * s.rxCap) = true) : Inv s.enlarge :=
  { h with
    memory := State.wf_enlarge h.memory
    stored := by rw [h.enlarge_rxBuf]; exact h.stored
    bytes := by rw [h.enlarge_rxBuf]; exact h.bytes
    room := h.room.trans (Nat.le_mul_of_pos_left _ (by decide))
    doubling := by
      obtain ⟨k, hk⟩ := h.doubling
      exact ⟨k + 1, by rw [State.enlarge_rxCap, hk, pow_succ]; ring⟩
    allowed := hcap }

theorem occupy (h : Inv s) {a : Nat} (ha : a < s.tblCap) : Inv (s.occupy a) :=
  { h with
    slots := insertSlot_pairwise h.slots
    table := fun k hk => by
      rcases mem_insertSlot.mp hk with rfl | hold
      · exact ha
      · exact h.table k hold }

/-- Growing the table drops no slot: all lie below the old slot count. -/
theorem growTable_tbl (h : Inv s) (a : Nat) : (s.growTable a).tbl = s.tbl :=
  List.filter_eq_self.mpr fun k hk => decide_eq_true (h.table k hk)

theorem growTable (h : Inv s) {a : Nat} (ha : s.tblCap ≤ a) : Inv (s.growTable a) :=
  { h with
    slots := by rw [h.growTable_tbl]; exact h.slots
    table := fun k hk => by
      rw [h.growTable_tbl] at hk
      exact (h.table k hk).trans_le (ha.trans (Nat.le_add_right _ _)) }

theorem registerSlot (h : Inv s) (a : Nat) : Inv (s.registerSlot a) := by
  rcases Nat.lt_or_ge a s.tblCap with hin | hout
  · rw [State.registerSlot_of_lt hin]
    exact h.occupy hin
  · rw [State.registerSlot_of_le hout]
    exact (h.growTable hout).occupy (Nat.lt_add_of_pos_right (by decide))

/-- Where a frame can reach, only the two bounded registers matter to the invariant. -/
theorem of_blockKept (h : Inv s) (hk : BlockKept s t) (halen : t.cfgAlen ≠ 0 ∧ Config.isSentinel t.cfgAlen = false)
    (hafac : Config.isSentinel t.cfgAfac = false) : Inv t := by
  rw [hk]
  exact { h with alen := halen, afac := hafac }

theorem of_sameConfig (h : Inv s) (hk : BlockKept s t) (hc : SameConfig s t) : Inv t := by
  obtain ⟨halen, hafac, -⟩ := hc
  exact h.of_blockKept hk (halen ▸ h.alen) (hafac ▸ h.afac)

end Inv

/-! ## Each transaction keeps the invariant -/

/-- A length asked for by a byte that is no sentinel is legal once clamped (R27, R200). -/
theorem clampLength_legal {v : Byte} (hv : Config.isSentinel v = false) :
    clampLength v ≠ 0 ∧ Config.isSentinel (clampLength v) = false := by
  unfold clampLength
  split_ifs with h0
  · decide
  · exact ⟨h0, hv⟩

/-- A frame without sentinels writes only legal values to the configuration registers. -/
theorem execDispatch_inv {frame : List Byte} {s t : State} (hs : Inv s)
    (hframe : ∀ b ∈ frame, Config.isSentinel b = false) (h : execDispatch frame s = .next t) : Inv t := by
  have hkept := execDispatch_blockKept h
  obtain hsame | ⟨-, hconfig⟩ := execDispatch_configStep h
  · exact hs.of_sameConfig hkept hsame
  · have hbyte : ∀ v, (frame.drop s.cfgAlen.toNat).head? = some v → Config.isSentinel v = false := fun v hv =>
      hframe v (List.mem_of_mem_drop (List.mem_of_head? hv))
    cases hconfig with
    | same hsame => exact hs.of_sameConfig hkept hsame
    | alen v _ _ hv hl hf _ => exact hs.of_blockKept hkept (hl ▸ clampLength_legal (hbyte v hv)) (hf ▸ hs.afac)
    | afac v _ _ hv hf hl _ => exact hs.of_blockKept hkept (hl ▸ hs.alen) (hf ▸ hbyte v hv)
    | logen _ _ hl hf => exact hs.of_blockKept hkept (hl ▸ hs.alen) (hf ▸ hs.afac)

/-- The bytes read out of the buffer are bytes of the buffer. -/
theorem mem_readN {m : Memory} {addr n : Nat} {b : Byte} (h : b ∈ m.readN addr n) : ∃ a, m.read a = b := by
  obtain ⟨i, hi, rfl⟩ := List.getElem_of_mem h
  rw [Memory.readN_length] at hi
  have hget := Memory.readN_getElem? m (addr := addr) hi
  rw [List.getElem?_eq_getElem (by rwa [Memory.readN_length])] at hget
  exact ⟨addr + i, (Option.some.inj hget).symm⟩

theorem Inv.bodyBytes_not_sentinel {s : State} (h : Inv s) {n : Nat} {b : Byte} (hb : b ∈ bodyBytes s n) :
    Config.isSentinel b = false := by
  obtain ⟨a, rfl⟩ := mem_readN hb
  exact h.bytes a

theorem execRxStop_inv {s t : State} (hs : Inv s) (h : execRxStop s = .next t) : Inv t := by
  obtain ⟨-, ⟨-, hdispatch⟩ | ⟨-, hraise⟩⟩ := execRxStop_eq_next h
  · exact execDispatch_inv (hs.clear.emit _) (fun _ hb => hs.bodyBytes_not_sentinel hb) hdispatch
  · obtain ⟨hkept, hsame⟩ := raiseError_blockKept hraise
    exact hs.clear.of_sameConfig hkept hsame

theorem bufAppend_inv {b : Byte} {s t : State} (hs : Inv s) (hb : Config.isSentinel b = false) (hm : s.rxMsize ≠ 0)
    (h : bufAppend b s = .next t) : Inv t := by
  obtain ⟨hroom, rfl⟩ | ⟨hfull, hpos, hcap, rfl⟩ := bufAppend_eq_next h
  · exact hs.store hb hm hroom
  · refine (hs.enlarge hcap).store hb hm ?_
    rw [State.enlarge_rxBidx, State.enlarge_rxCap, Config.bufGrowFactor]
    omega

theorem execFeed_inv {b : Byte} {s t : State} (hs : Inv s) (h : execFeed b s = .next t) : Inv t := by
  obtain ⟨-, rfl⟩ | ⟨-, hstop⟩ | ⟨hb, hm, happend⟩ | ⟨hb, hm, rfl⟩ := execFeed_eq_next h
  · exact hs.clear
  · exact execRxStop_inv hs hstop
  · exact bufAppend_inv hs hb hm happend
  · exact hs.latch hb hm

/-- Each of the host's six transactions keeps the invariant. -/
theorem exec_decodeTx_inv {tx : HostTx} {s t : State} (hs : Inv s) (h : exec (decodeTx tx) s = .next t) : Inv t := by
  cases tx with
  | feed b => exact execFeed_inv hs h
  | write a p =>
    obtain ⟨-, -, rfl⟩ := writeFrame_eq_next h
    exact hs.emit _
  | register a =>
    cases h
    exact hs.registerSlot a
  | setGeneric on =>
    cases h
    exact hs.setGen on
  | setErrcb =>
    cases h
    exact hs.setErr
  | reset =>
    cases h
    exact hs.resetAll

/-- Settles O4: a step is idle or performs one transaction on `s` without its head of the queue, which the invariant
does not read. -/
theorem everyStepKeepsInvariant : Obligations.EveryStepKeepsInvariant := by
  intro s t hs hstep
  obtain ⟨-, rfl⟩ | ⟨tx, later, -, hexec⟩ := step_eq_next hstep
  · exact hs
  · exact exec_decodeTx_inv (hs.withHost later s.hostCalls s.events s.ret) hexec

end Sys2Proof.Machine
end

section
/-! PROOFS of the encodings (30_encoding.md R90 to R99, 45_builtin_commands.md R207): received bytes, call forms, and
the wire frame, which decodes to what it was made from. -/

namespace Sys2Proof.Machine

/-! ## Call forms -/

theorem checked_eq_ok {i j : Instr} (h : checked i = .ok j) : i.wf = true ∧ j = i := by
  unfold checked at h
  split_ifs at h with hwf
  cases h
  exact ⟨hwf, rfl⟩

/-- The call form of every operation, read back and checked against its operands' domain. -/
theorem callForm (i : Instr) : Laws.CallForm.Statement i := by
  cases i <;> rfl

theorem call_eq_mk {c : Call} {op : Mnemonic} {args : List Arg} (hop : c.op = op) (hargs : c.args = args) :
    c = ⟨op, args⟩ := by
  rw [← hop, ← hargs]

/-- What a call form denotes is checked and has that call form. -/
theorem decodeCall_eq_ok {c : Call} {i : Instr} (h : decodeCall c = .ok i) : i.wf = true ∧ encodeCall i = c := by
  unfold decodeCall at h
  split at h
  case h_29 => cases h
  all_goals
    obtain ⟨hwf, rfl⟩ := checked_eq_ok h
    exact ⟨hwf, (call_eq_mk ‹c.op = _› ‹c.args = _›).symm⟩

/-- Settles O8: `callForm` read in the case of well-formed operands, and `decodeCall_eq_ok`. -/
theorem callFormsRoundTrip : Obligations.CallFormsRoundTrip :=
  ⟨fun i hwf => (callForm i).trans (if_pos hwf), fun _ _ => decodeCall_eq_ok⟩

/-! ## Received bytes (R94, R95) -/

/-- A byte is no sentinel exactly when it lies below both, 254 and 255 (R91). -/
theorem isSentinel_eq_false_iff_toNat {b : Byte} : Config.isSentinel b = false ↔ b.toNat < 254 := by
  rw [isSentinel_eq_false_iff, Config.startByte, Config.stopByte]
  bv_omega

/-- A well-formed receive operation is decoded from its byte where the length is known as the operation asks. -/
theorem map_decodeByte_encode {w f : Nat} {known : Bool} {i : Instr} (hwf : i.wf = true)
    (h : i = .rxStart ∨ i = .rxStop ∨ ∃ b, i = if known then .rxData b else .rxLen b) :
    (encode w f i).map (decodeByte known) = [i] := by
  obtain rfl | rfl | ⟨b, hi⟩ := h
  · exact congrArg ([·]) (decodeByte_startByte known)
  · exact congrArg ([·]) (decodeByte_stopByte known)
  · have hb : i.wf = (!Config.isSentinel b) ∧ encode w f i = [b] := by
      cases known with
      | false => rw [hi]; exact ⟨rfl, rfl⟩
      | true => rw [hi]; exact ⟨rfl, rfl⟩
    obtain ⟨hdomain, hencode⟩ := hb
    rw [hdomain, Bool.not_eq_true'] at hwf
    obtain ⟨hstart, hstop⟩ := isSentinel_eq_false_iff.mp hwf
    rw [hencode, List.map_singleton, decodeByte_of_not_sentinel hstart hstop, hi]

/-- Settles O9: START and STOP are the two sentinels, and any other byte is a length or a body byte, well formed and its
own encoding. -/
theorem receivedBytesRoundTrip : Obligations.ReceivedBytesRoundTrip := by
  refine ⟨fun w f known b => ?decoded, fun w f i hwf => ⟨?unknown, ?known⟩⟩
  case decoded =>
    by_cases hstart : b = Config.startByte
    · rw [hstart, decodeByte_startByte]
      exact ⟨rfl, rfl⟩
    by_cases hstop : b = Config.stopByte
    · rw [hstop, decodeByte_stopByte]
      exact ⟨rfl, rfl⟩
    have hfree : (!Config.isSentinel b) = true := by rw [isSentinel_eq_false_iff.mpr ⟨hstart, hstop⟩, Bool.not_false]
    rw [decodeByte_of_not_sentinel hstart hstop]
    cases known with
    | false => exact ⟨hfree, rfl⟩
    | true => exact ⟨hfree, rfl⟩
  case unknown => exact map_decodeByte_encode (known := false) hwf
  case known => exact map_decodeByte_encode (known := true) hwf

/-! ## The wire frame (R90 to R92, R97) -/

theorem sentinelFree_iff {bs : List Byte} : sentinelFree bs = true ↔ ∀ b ∈ bs, Config.isSentinel b = false := by
  simp [sentinelFree]

theorem sentinelFree_append {bs cs : List Byte} (hb : sentinelFree bs = true) (hc : sentinelFree cs = true) :
    sentinelFree (bs ++ cs) = true := by
  rw [sentinelFree, List.all_append, ← sentinelFree, ← sentinelFree, hb, hc, Bool.and_self]

theorem lengthByte_toNat {n : Nat} (h : n ≤ 253) : (BitVec.ofNat 8 n).toNat = n := by
  rw [BitVec.toNat_ofNat]
  omega

/-- A length that a frame can declare is no sentinel (R91). -/
theorem lengthByte_not_sentinel {n : Nat} (h : n ≤ 253) : Config.isSentinel (BitVec.ofNat 8 n) = false := by
  rw [isSentinel_eq_false_iff_toNat, lengthByte_toNat h]
  omega

/-- In a radix up to 254 every digit is below both sentinels. -/
theorem digitBytes_sentinelFree {a w f : Nat} (h0 : 0 < f) (hf : f ≤ 254) :
    sentinelFree (digitBytes (encodeDigits a w f)) = true := by
  rw [sentinelFree_iff]
  intro b hb
  obtain ⟨d, hd, rfl⟩ := List.mem_map.mp hb
  have hlt := encodeDigits_lt h0 hd
  exact lengthByte_not_sentinel (by omega)

/-- The bytes between LEN and STOP of `FRAME(a, p)`: the address field and the payload (R90). -/
def wireBody (w f a : Nat) (p : List Byte) : List Byte := digitBytes (encodeDigits a w f) ++ p

@[simp] theorem digitBytes_length (ds : List Nat) : (digitBytes ds).length = ds.length := List.length_map _

theorem wireBody_length (w f a : Nat) (p : List Byte) : (wireBody w f a p).length = w + p.length := by
  rw [wireBody, List.length_append, digitBytes_length, encodeDigits_length]

theorem encodeWire_eq_wireBody (w f a : Nat) (p : List Byte) :
    encodeWire w f a p = Config.startByte :: BitVec.ofNat 8 (wireBody w f a p).length ::
      (wireBody w f a p ++ [Config.stopByte]) := by
  rw [wireBody_length, encodeWire, wireBody]
  simp only [List.cons_append, List.nil_append, List.append_assoc]

theorem wireBody_sentinelFree {w f a : Nat} {p : List Byte} (h0 : 0 < f) (hf : f ≤ 254) (hp : sentinelFree p = true) :
    sentinelFree (wireBody w f a p) = true := sentinelFree_append (digitBytes_sentinelFree h0 hf) hp

/-- The address field of the body holds `a mod f^w` (R159). -/
theorem decodeAddress_wireBody {w f a : Nat} (p : List Byte) (h0 : 0 < f) (hf : f ≤ 256) :
    decodeAddress (wireBody w f a p) w f = a % f ^ w := by
  have hfits : ∀ d ∈ encodeDigits a w f, d < 256 := fun d hd => (encodeDigits_lt h0 hd).trans_le hf
  rw [wireBody, decodeAddress_append (by simp), decodeAddress_digitBytes hfits]

theorem wireBody_drop (w f a : Nat) (p : List Byte) : (wireBody w f a p).drop w = p :=
  List.drop_left' (by simp)

/-- A framed body that a receiver can take intact decodes to its address field and what follows it. -/
theorem decodeWire_of_body {w f : Nat} {body : List Byte} (hw : w ≤ body.length) (hlen : body.length ≤ 253)
    (hfree : sentinelFree body = true) :
    decodeWire w f (Config.startByte :: BitVec.ofNat 8 body.length :: (body ++ [Config.stopByte])) =
      .ok (decodeAddress body w f, body.drop w) := by
  have hlenFree : sentinelFree (BitVec.ofNat 8 body.length :: body) = true :=
    sentinelFree_iff.mpr (List.forall_mem_cons.mpr ⟨lengthByte_not_sentinel hlen, sentinelFree_iff.mp hfree⟩)
  rw [decodeWire, if_neg (not_not.mpr rfl), List.getLast?_concat, if_neg (not_not.mpr rfl), List.dropLast_concat,
    hlenFree, if_neg (by decide), lengthByte_toNat hlen, if_neg (not_not.mpr rfl), if_neg (Nat.not_lt.mpr hw)]

/-- A wire frame within the receiver's bounds decodes to its address, if the field can hold it, and its payload. -/
theorem decodeWire_encodeWire {w f a : Nat} {p : List Byte} (h0 : 0 < f) (hf : f ≤ 254) (ha : a < f ^ w)
    (hp : sentinelFree p = true) (hlen : w + p.length ≤ 253) : decodeWire w f (encodeWire w f a p) = .ok (a, p) := by
  rw [encodeWire_eq_wireBody,
    decodeWire_of_body (by rw [wireBody_length]; omega) (by rwa [wireBody_length]) (wireBody_sentinelFree h0 hf hp),
    decodeAddress_wireBody p h0 (by omega), Nat.mod_eq_of_lt ha, wireBody_drop]

/-- Settles O10. -/
theorem wireFramesRoundTrip : Obligations.WireFramesRoundTrip :=
  fun _ _ _ _ _ hf0 hf ha hp hlen => decodeWire_encodeWire (by omega) hf ha hp hlen

/-! ## The built-in commands' frames (R99, R207) -/

/-- The command an address selects lies below 10, stands on the wire as `FRAME` of its operands, and is well formed
where its payload is. -/
theorem decodeCommand_eq_ok {a : Nat} {p : List Byte} {i : Instr} (h : decodeCommand a p = .ok i) :
    a < 10 ∧ (∀ w f, encode w f i = encodeWire w f a p) ∧ i.wf = commandWf a a p := by
  unfold decodeCommand at h
  split at h
  case h_11 => cases h
  all_goals
    cases h
    exact ⟨by decide, fun _ _ => rfl, rfl⟩

/-- An address below the radix stands in the last digit, zeros before it (R207). -/
theorem encodeDigits_of_lt {a w f : Nat} (hw : 1 ≤ w) (ha : a < f) :
    encodeDigits a w f = List.replicate (w - 1) 0 ++ [a] := by
  obtain ⟨w, rfl⟩ := Nat.exists_eq_add_of_le' hw
  have hzero : ∀ n, encodeDigits 0 n f = List.replicate n 0 := fun n => by
    induction n with
    | zero => rfl
    | succ n ih => rw [encodeDigits, Nat.zero_div, ih, Nat.zero_mod, List.replicate_succ']
  rw [encodeDigits, Nat.div_eq_of_lt ha, Nat.mod_eq_of_lt ha, hzero, Nat.add_sub_cancel]

/-- Settles O11: the command's frame is that of an address below 10, so below the radix. -/
theorem builtinFramesDecodeToTheirCommand : Obligations.BuiltinFramesDecodeToTheirCommand := by
  intro w f a p i hw hf0 hf hp hlen hi
  obtain ⟨ha, hencode, hwf⟩ := decodeCommand_eq_ok hi
  have hfield : a < f ^ w := (ha.trans_le hf0).trans_le (Nat.le_self_pow (by omega) f)
  refine ⟨?_, ?_, encodeDigits_of_lt hw (by omega)⟩
  · rw [hencode, decodeWireCommand, decodeWire_encodeWire (by omega) hf hfield hp hlen]
    exact hi
  · rw [hwf, commandWf, hp, decide_eq_true rfl, Bool.and_self]

/-- Settles O7: the words evaluated. -/
theorem writtenOutWordsDecode : Obligations.WrittenOutWordsDecode := by
  unfold Obligations.WrittenOutWordsDecode
  decide

end Sys2Proof.Machine
end

section
/-! PROOFS of errors and of calls into the host (60_exceptions.md R244 to R257, 70_reset_and_hazards.md R284): what
`RAISE` and an invocation answer for a handler that is silent, that writes frames, whose `WRITE` faults, or that makes
a forbidden call. -/

namespace Sys2Proof.Machine

/-! ## One invocation -/

/-- An invocation runs the next plan, which is then used up. -/
theorem callHost_of_cons {s : State} {calls : List HostTx} {later : List (List HostTx)}
    (h : s.hostCalls = calls :: later) : callHost s = runHostCalls calls { s with hostCalls := later } := by
  unfold callHost
  rw [h]

/-- An invocation whose plan begins with writes within the bounds: its event, the frames in order, and the rest of the
plan goes on from there (R284). -/
theorem callHost_emit_of_plan {writes : List (Nat × List Byte)} {rest : List HostTx} {later : List (List HostTx)}
    {s : State} (h : s.hostCalls = (planOf writes ++ rest) :: later) (hb : InBounds s writes) (e : Event) :
    callHost (s.emit e) = runHostCalls rest (s.withOutputs later (e :: writeEvents s writes)) := by
  refine (callHost_of_plan (s := s.emit e) h hb).trans (congrArg (runHostCalls rest) ?_)
  simp only [State.withOutputs, State.emit, List.append_assoc, List.singleton_append]
  rfl

/-- An invocation that only writes frames within the bounds. -/
theorem callHost_emit_of_writes {writes : List (Nat × List Byte)} {later : List (List HostTx)} {s : State}
    (h : s.hostCalls = planOf writes :: later) (hb : InBounds s writes) (e : Event) :
    callHost (s.emit e) = .next (s.withOutputs later (e :: writeEvents s writes)) :=
  callHost_emit_of_plan (rest := []) (by rwa [List.append_nil]) hb e

/-- A forbidden call ends the step, whatever frames the handler wrote before it (R257). -/
theorem callHost_emit_of_reentry {writes : List (Nat × List Byte)} {c : HostTx} {rest : List HostTx}
    {later : List (List HostTx)} {s : State} (h : s.hostCalls = (planOf writes ++ c :: rest) :: later)
    (hb : InBounds s writes) (hc : ∀ a p, c ≠ .write a p) (e : Event) :
    callHost (s.emit e) = .refused (.insideHandler c) :=
  (callHost_emit_of_plan h hb e).trans (runHostCalls_of_reentry hc rest _)

section Fault

variable {writes : List (Nat × List Byte)} {a : Nat} {p : List Byte} {rest : List HostTx}
  {later : List (List HostTx)} {s : State}

/-- A handler's `WRITE` of too long a payload ends the step; what was emitted before stays in the fault (R172, R248). -/
theorem callHost_emit_of_too_long (h : s.hostCalls = (planOf writes ++ .write a p :: rest) :: later)
    (hb : InBounds s writes) (hl : 255 < s.cfgAlen.toNat + p.length) (e : Event) :
    callHost (s.emit e) = .fault (.txLengthOverflow (s.events ++ e :: writeEvents s writes)) := by
  rw [callHost_emit_of_plan h hb, runHostCalls, writeFrame_of_too_long (s := s.withOutputs ..) hl, andThen_fault,
    State.withOutputs_events]

/-- A handler's `WRITE` in radix 0 ends the step in the same way (R161, R248). -/
theorem callHost_emit_of_radix_zero (h : s.hostCalls = (planOf writes ++ .write a p :: rest) :: later)
    (hb : InBounds s writes) (hl : s.cfgAlen.toNat + p.length ≤ 255) (hf : s.cfgAfac = 0) (e : Event) :
    callHost (s.emit e) = .fault (.encodeRadixZero (s.events ++ e :: writeEvents s writes)) := by
  rw [callHost_emit_of_plan h hb, runHostCalls, writeFrame_of_radix_zero (s := s.withOutputs ..) hl hf, andThen_fault,
    State.withOutputs_events]

end Fault

/-! ## `RAISE` -/

theorem exec_raise (e : ErrorRec) (s : State) : exec (.raise e) s = raiseError e s := rfl

/-- With a callback registered, `RAISE` is its invocation after the `Error` event. -/
theorem raiseError_of_callback {s : State} (h : s.errcbSet = true) (e : ErrorRec) :
    raiseError e s = callHost (s.emit (.error e s.cfgLogen true)) := by
  rw [raiseError, if_pos h, h]

/-- With no callback, or one that makes no call, `RAISE` is its `Error` event (R244, R246). -/
theorem raiseError_of_silent {s : State} (h : s.errcbSet = false ∨ Quiet s) (e : ErrorRec) :
    raiseError e s = .next (s.emit (.error e s.cfgLogen s.errcbSet)) := by
  obtain hoff | hquiet := h
  · rw [raiseError, if_neg (Bool.eq_false_iff.mp hoff)]
  · exact raiseError_of_quiet e hquiet

/-- The callback's frames follow its error (R250, R284). -/
theorem raiseError_of_writes {writes : List (Nat × List Byte)} {later : List (List HostTx)} {s : State}
    (hset : s.errcbSet = true) (h : s.hostCalls = planOf writes :: later) (hb : InBounds s writes) (e : ErrorRec) :
    raiseError e s = .next (s.withOutputs later (.error e s.cfgLogen true :: writeEvents s writes)) :=
  (raiseError_of_callback hset e).trans (callHost_emit_of_writes h hb _)

theorem raiseError_of_reentry {writes : List (Nat × List Byte)} {c : HostTx} {rest : List HostTx}
    {later : List (List HostTx)} {s : State} (hset : s.errcbSet = true)
    (h : s.hostCalls = (planOf writes ++ c :: rest) :: later) (hb : InBounds s writes) (hc : ∀ a p, c ≠ .write a p)
    (e : ErrorRec) : raiseError e s = .refused (.insideHandler c) :=
  (raiseError_of_callback hset e).trans (callHost_emit_of_reentry h hb hc _)

/-- Settles O48: the next state is `s` with the `Error` event. -/
theorem raiseReportsOneError : Obligations.RaiseReportsOneError := fun e s hsilent =>
  ⟨s.emit (.error e s.cfgLogen s.errcbSet), raiseError_of_silent hsilent e, rfl, s.emit_frame _⟩

/-- Settles O49: the next state is `s` with the callback's plan used up and the error and its frames emitted. -/
theorem callbackWriteFollowsItsError : Obligations.CallbackWriteFollowsItsError :=
  fun e s writes later hset hplan hb =>
    ⟨s.withOutputs later (.error e s.cfgLogen true :: writeEvents s writes), raiseError_of_writes hset hplan hb e, rfl,
      s.withOutputs_frame _ _⟩

end Sys2Proof.Machine
end

section
/-! PROOFS of the dispatcher's resolution (44_dispatcher.md R180 to R188): runts, addresses that do not fit, the order
of the handlers, and the frames, faults and forbidden calls of each of them. -/

namespace Sys2Proof.Machine

theorem exec_dispatch (frame : List Byte) (s : State) : exec (.dispatch frame) s = execDispatch frame s := rfl

/-! ## Runts and addresses that do not fit (R164, R183) -/

theorem execDispatch_of_runt {frame : List Byte} {s : State} (h : frame.length < s.cfgAlen.toNat) :
    execDispatch frame s = raiseError (.runtFrame frame.length s.cfgAlen.toNat frame) s := if_pos h

/-- Settles O37: the dispatch of a runt is `RAISE` (`execDispatch_of_runt`), so it answers what `RAISE` answers. -/
theorem runtFrameIsReportedAndDropped : Obligations.RuntFrameIsReportedAndDropped := by
  rintro frame s e hrunt rfl
  have hraise := execDispatch_of_runt hrunt
  refine ⟨hraise, fun hsilent => ?silent, fun writes later hset hplan hb => ?writes⟩
  case silent => exact ⟨_, hraise.trans (raiseError_of_silent hsilent _), rfl, s.emit_frame _⟩
  case writes => exact ⟨_, hraise.trans (raiseError_of_writes hset hplan hb _), rfl, s.withOutputs_frame _ _⟩

theorem withDecoded_of_overflow {bytes : List Byte} {w f : Nat} {s : State} (hl : w ≤ bytes.length)
    (hf : addrFits s.build (decodeAddress bytes w f) = false) (k : Nat → Out) :
    withDecoded bytes w f s k = .fault (.addressOverflow s.events) := by
  rw [withDecoded, if_neg (Nat.not_lt.mpr hl), if_neg (Bool.eq_false_iff.mp hf)]

/-- A frame that is no runt but whose address does not fit. -/
theorem execDispatch_of_overflow {frame : List Byte} {s : State} (hl : s.cfgAlen.toNat ≤ frame.length)
    (hf : addrFits s.build (decodeAddress frame s.cfgAlen.toNat s.cfgAfac.toNat) = false) :
    execDispatch frame s = .fault (.addressOverflow s.events) := by
  rw [execDispatch, if_neg (Nat.not_lt.mpr hl)]
  exact withDecoded_of_overflow (by simpa [addressField] using hl) (by rwa [decodeAddress_addressField]) _

/-- Settles O34. -/
theorem addressOverflowFaults : Obligations.AddressOverflowFaults :=
  ⟨fun _ _ _ _ hl hf => (exec_decode ..).trans (withDecoded_of_overflow hl hf _),
    fun _ _ hl hf => execDispatch_of_overflow hl hf⟩

/-! ## The order of the handlers (R184) -/

theorem invokeGeneric_of_set {s : State} (h : s.genSet = true) (a : Nat) (p : List Byte) :
    invokeGeneric a p s = callHost (s.emit (.invoke .generic a p)) := if_pos h

theorem invokeGeneric_of_unset {s : State} (h : s.genSet = false) (a : Nat) (p : List Byte) :
    invokeGeneric a p s = .next s := if_neg (Bool.eq_false_iff.mp h)

theorem resolve_of_generic {s : State} (h : s.genSet = true) (a : Nat) (p : List Byte) :
    resolve a p s = andThen (callHost (s.emit (.invoke .generic a p))) (route a p) := by
  rw [resolve, invokeGeneric_of_set h]

theorem resolve_of_no_generic {s : State} (h : s.genSet = false) (a : Nat) (p : List Byte) :
    resolve a p s = route a p s := by
  rw [resolve, invokeGeneric_of_unset h, andThen_next]

theorem route_of_userSlot {a : Nat} {s : State} (h : s.userSlot a = true) (p : List Byte) :
    route a p s = callHost (s.emit (.invoke .user a p)) := if_pos h

/-- The command in a built-in slot, as the operation it is (R99, R180). -/
theorem runBuiltin_eq_exec {a : Nat} (h : a < 10) (p : List Byte) :
    ∃ i, decodeCommand a p = .ok i ∧ ∀ u, runBuiltin a p u = exec i u := by
  interval_cases a <;> exact ⟨_, rfl, fun _ => rfl⟩

/-- Every built-in but `CMD9` answers a next state. -/
theorem runBuiltin_answers {a : Nat} (h : a ≠ 9) (p : List Byte) (s : State) : ∃ t, runBuiltin a p s = .next t := by
  unfold runBuiltin
  split
  case h_1 => cases p <;> exact ⟨_, rfl⟩
  case h_2 => cases p <;> exact ⟨_, rfl⟩
  case h_10 => exact absurd rfl h
  all_goals exact ⟨_, rfl⟩

section Silent

variable {s : State} {a : Nat} {p : List Byte}

/-- A generic handler that makes no call adds its invocation, if it is set. -/
theorem resolve_of_quiet_generic (hq : Quiet s) :
    resolve a p s =
      route a p (s.withOutputs s.hostCalls (if s.genSet then [.invoke .generic a p] else [])) := by
  rw [resolve, invokeGeneric_of_quiet hq, andThen_next]
  rfl

/-- Handlers that make no call: the events of those that run, and nothing else (R184, R187). -/
theorem resolve_of_quiet (hq : Quiet s) (h : s.userSlot a = true ∨ s.builtinSlot a = false) :
    resolve a p s = .next (s.withOutputs s.hostCalls (handlerEvents s a p)) := by
  rw [resolve_of_quiet_generic hq, handlerEvents]
  by_cases hu : s.userSlot a = true
  · rw [route_of_user (s := s.withOutputs ..) hu hq, if_pos hu, State.emit_eq_withOutputs,
      State.withOutputs_withOutputs]
    rfl
  · have huser : s.userSlot a = false := Bool.eq_false_iff.mpr hu
    rw [route_of_none (s := s.withOutputs ..) huser (h.resolve_left hu), if_neg hu, List.append_nil]

/-- A built-in command runs after its own event and the generic handler's. -/
theorem resolve_of_quiet_builtin (hq : Quiet s) (hu : s.userSlot a = false) (hb : s.builtinSlot a = true) :
    resolve a p s =
      runBuiltin a p (s.withOutputs s.hostCalls (handlerEvents s a p ++ [.invoke .builtin a p])) := by
  rw [resolve_of_quiet_generic hq, handlerEvents, if_neg (Bool.eq_false_iff.mp hu), List.append_nil,
    route_of_builtin (s := s.withOutputs ..) hu hb, State.emit_eq_withOutputs, State.withOutputs_withOutputs]
  rfl

end Silent

/-- A frame that no built-in serves, no handler making a call: the handlers' events and nothing else. -/
theorem execDispatch_of_quiet {frame : List Byte} {s : State} {a : Nat} (hl : s.cfgAlen.toNat ≤ frame.length)
    (ha : a = decodeAddress frame s.cfgAlen.toNat s.cfgAfac.toNat) (hf : addrFits s.build a = true) (hq : Quiet s)
    (hslot : s.userSlot a = true ∨ s.builtinSlot a = false) :
    execDispatch frame s =
      .next (s.withOutputs s.hostCalls (handlerEvents s a (frame.drop s.cfgAlen.toNat))) := by
  subst ha
  exact (execDispatch_of_fits hl hf).trans (resolve_of_quiet hq hslot)

/-- Settles O38: a frame that is no runt is resolved, and its slot decides between the two clauses. -/
theorem dispatchResolvesInOrder : Obligations.DispatchResolvesInOrder := by
  rintro frame p s a hl hq rfl rfl hf
  refine ⟨fun hslot => ?handlers, fun hu hb => ?builtin⟩
  case handlers => exact ⟨_, execDispatch_of_quiet hl rfl hf hq hslot, rfl, s.withOutputs_frame _ _⟩
  case builtin =>
    obtain ⟨i, hi, hrun⟩ := runBuiltin_eq_exec (builtinSlot_lt hb) (frame.drop s.cfgAlen.toNat)
    exact ⟨i, hi, (execDispatch_of_fits hl hf).trans ((resolve_of_quiet_builtin hq hu hb).trans (hrun _))⟩

/-- What stands in the generic handler's events is no built-in's invocation. -/
theorem invoke_builtin_notMem_genericEvents (s : State) (a b : Nat) (p q : List Byte) (txs : List (List Byte)) :
    Event.invoke .builtin b q ∉ genericEvents s a p txs := by
  unfold genericEvents
  split_ifs <;> simp

/-- Settles O39: where the slot is occupied, the user handler ends the resolution (`resolve_eq_next`). -/
theorem registeredHandlerShadowsTheBuiltin : Obligations.RegisteredHandlerShadowsTheBuiltin := by
  refine ⟨fun a s => ⟨s.registerSlot a, exec_register a s, s.registerSlot_userSlot_self a⟩, ?shadows⟩
  case shadows =>
    rintro a frame s t huser hl rfl h
    obtain ⟨hrunt, -⟩ | ⟨-, -, hresolve⟩ := execDispatch_eq_next h
    · exact absurd hl (Nat.not_le.mpr hrunt)
    rw [decodeAddress_addressField] at hresolve
    obtain ⟨calls, txs, ⟨-, txs', rfl⟩ | ⟨hno, -⟩ | ⟨hno, -⟩⟩ := resolve_eq_next hresolve
    · refine ⟨⟨rfl, rfl, rfl⟩, _, rfl, fun b q hmem => ?_⟩
      obtain hgeneric | hown := List.mem_append.mp hmem
      · exact invoke_builtin_notMem_genericEvents s _ b _ q txs hgeneric
      · simp at hown
    · exact absurd huser (Bool.eq_false_iff.mp hno)
    · exact absurd huser (Bool.eq_false_iff.mp hno)

/-! ## Handlers that write frames (R188, R284) -/

/-- After a generic handler that writes frames the route goes on with the frames emitted. -/
theorem resolve_of_generic_writes {writes : List (Nat × List Byte)} {later : List (List HostTx)} {s : State}
    (hg : s.genSet = true) (h : s.hostCalls = planOf writes :: later) (hb : InBounds s writes) (a : Nat)
    (p : List Byte) :
    resolve a p s = route a p (s.withOutputs later (.invoke .generic a p :: writeEvents s writes)) := by
  rw [resolve_of_generic hg, callHost_emit_of_writes h hb, andThen_next]

/-- A second invocation that only writes frames within the bounds, with its own plan or with none left: its events
follow those of the first. -/
theorem callHost_second_of_writes {own : List (Nat × List Byte)} {later left : List (List HostTx)} {s : State}
    (h : later = planOf own :: left ∨ (later = [] ∧ own = [] ∧ left = [])) (hb : InBounds s own) (es : List Event)
    (e : Event) :
    callHost ((s.withOutputs later es).emit e) = .next (s.withOutputs left (es ++ e :: writeEvents s own)) := by
  obtain rfl | ⟨rfl, rfl, rfl⟩ := h
  · rw [callHost_emit_of_writes (s := s.withOutputs ..) rfl hb, State.withOutputs_withOutputs]
    rfl
  · rw [State.emit_eq_withOutputs, State.withOutputs_withOutputs, callHost_of_quiet rfl]
    rfl

/-- Settles O50: without a generic handler the resolution is the user handler's invocation. -/
theorem userHandlerWritesFollowItsInvocation : Obligations.UserHandlerWritesFollowItsInvocation := by
  rintro frame p s a writes later hg hu hl rfl rfl hf hplan hb
  have hresolve : execDispatch frame s = callHost (s.emit _) :=
    (execDispatch_of_fits hl hf).trans ((resolve_of_no_generic hg ..).trans (route_of_userSlot hu _))
  exact ⟨_, hresolve.trans (callHost_emit_of_writes hplan hb _), rfl, s.withOutputs_frame _ _⟩

/-- Settles O51: the route runs on `u`, which is `s` with the generic handler's frames emitted; its three ends are the
three clauses. -/
theorem genericWritesPrecedeTheRoute : Obligations.GenericWritesPrecedeTheRoute := by
  rintro frame p s a writes later front hg hl rfl rfl hf hplan hb rfl
  have hroute := (execDispatch_of_fits hl hf).trans (resolve_of_generic_writes hg hplan hb ..)
  generalize decodeAddress frame s.cfgAlen.toNat s.cfgAfac.toNat = a at hroute ⊢
  generalize frame.drop s.cfgAlen.toNat = p at hroute ⊢
  rw [exec_dispatch, hroute]
  refine ⟨fun own left hu hown hleft => ?user, fun hu hbuiltin => ?none, fun hu hbuiltin => ?builtin⟩
  case user =>
    rw [route_of_userSlot (by exact hu)]
    exact ⟨_, callHost_second_of_writes hleft hown _ _, rfl, s.withOutputs_frame _ _⟩
  case none => exact ⟨_, route_of_none hu hbuiltin, rfl, s.withOutputs_frame _ _⟩
  case builtin =>
    obtain ⟨i, hi, hrun⟩ := runBuiltin_eq_exec (builtinSlot_lt hbuiltin) p
    refine ⟨i, _, hi, (route_of_builtin (s := s.withOutputs ..) hu hbuiltin).trans (hrun _), ?_⟩
    rw [State.emit_eq_withOutputs, State.withOutputs_withOutputs]
    exact ⟨rfl, s.withOutputs_frame _ _⟩

/-- `CMD9` writes the status reply (R204). -/
theorem exec_cmd9 (a : Nat) (p : List Byte) (s : State) : exec (.cmd9 a p) s = writeFrame a (statusReply s) s := rfl

theorem statusReply_length (s : State) : (statusReply s).length = 9 := rfl

/-- Settles O52: the route of address 9 is `CMD9`, which writes the reply after what was emitted. -/
theorem handlerWritePrecedesTheStatusReply : Obligations.HandlerWritePrecedesTheStatusReply := by
  rintro frame p s writes later hg hu hbuiltin hl ha hf rfl hplan hb hlen hfac
  have hroute := (execDispatch_of_fits hl (by rwa [ha])).trans (resolve_of_generic_writes hg hplan hb ..)
  rw [ha, route_of_builtin (by exact hu) (by exact hbuiltin), State.emit_eq_withOutputs,
    State.withOutputs_withOutputs] at hroute
  refine ⟨_, hroute.trans (writeFrame_of_bounds (p := statusReply s) (Nat.add_le_add_right hlen 9) hfac), ?_⟩
  rw [State.emit_eq_withOutputs, State.withOutputs_withOutputs, List.append_assoc]
  exact ⟨rfl, s.withOutputs_frame _ _⟩

/-- Settles O45: the reply of nine bytes fits where the length is at most 246; the faults are `writeFrame`'s own. -/
theorem commandNineSendsTheStatus : Obligations.CommandNineSendsTheStatus := by
  intro a p reply s hreply
  obtain rfl : reply = statusReply s := hreply
  rw [exec_cmd9]
  have hlen := statusReply_length s
  refine ⟨fun hl hf => ?sent, fun hl hf => ?radixZero, fun hl => ?tooLong⟩
  case sent => exact ⟨_, writeFrame_of_bounds (by omega) hf, rfl, s.emit_frame _⟩
  case radixZero => exact writeFrame_of_radix_zero (by omega) hf a
  case tooLong => exact writeFrame_of_too_long (by omega) a

theorem exec_cmd0_nil (a : Nat) (s : State) : exec (.cmd0 a []) s = .next s := rfl

theorem exec_cmd0_cons (a : Nat) (v : Byte) (rest : List Byte) (s : State) :
    exec (.cmd0 a (v :: rest)) s = .next (s.setAlen (clampLength v)) := rfl

/-- Setting the address length changes `CFG_ALEN` and nothing else. -/
theorem State.setAlen_frame (s : State) (v : Byte) :
    (s.setAlen v).cfgAfac = s.cfgAfac ∧ (s.setAlen v).cfgLogen = s.cfgLogen ∧ SameReceive s (s.setAlen v) ∧
      SameTables s (s.setAlen v) ∧ SameHost s (s.setAlen v) ∧ SameOutputs s (s.setAlen v) := by
  simp [SameReceive, SameBytes, SameTables, SameHost, SameOutputs]

/-- Settles O41: an empty payload answers `s`; a first byte `v` answers `s.setAlen (clampLength v)`, and the clamp is
the statement's case split. -/
theorem commandZeroSetsAddressLength : Obligations.CommandZeroSetsAddressLength := fun a s =>
  ⟨exec_cmd0_nil a s, fun v rest =>
    ⟨s.setAlen (clampLength v), exec_cmd0_cons a v rest s, s.setAlen_cfgAlen _, s.setAlen_frame _⟩⟩

/-! ## Handlers that end the step (R257, R172, R161) -/

theorem andThen_next_right (x : Out) : andThen x .next = x := by
  cases x <;> rfl

/-- The first handler of a dispatch, generic or user: whatever ends its invocation ends the dispatch. -/
theorem execDispatch_of_first_handler {frame : List Byte} {s : State} {who : Target} {a : Nat}
    (hl : s.cfgAlen.toNat ≤ frame.length) (ha : a = decodeAddress frame s.cfgAlen.toNat s.cfgAfac.toNat)
    (hf : addrFits s.build a = true)
    (hwho : who = .generic ∧ s.genSet = true ∨ who = .user ∧ s.genSet = false ∧ s.userSlot a = true) :
    ∃ k, execDispatch frame s = andThen (callHost (s.emit (.invoke who a (frame.drop s.cfgAlen.toNat)))) k := by
  subst ha
  rw [execDispatch_of_fits hl hf]
  obtain ⟨rfl, hg⟩ | ⟨rfl, hg, hu⟩ := hwho
  · exact ⟨_, resolve_of_generic hg ..⟩
  · exact ⟨.next, by rw [andThen_next_right, resolve_of_no_generic hg, route_of_userSlot hu]⟩

/-- Settles O53: the callback's and the first handler's invocations fault, and the step with them. -/
theorem handlerWriteFaultEndsTheStep : Obligations.HandlerWriteFaultEndsTheStep := by
  intro writes a p rest later s hplan hb
  refine ⟨fun e hset => ?callback, fun frame q b who hl hdecode hq hf hwho => ?handler⟩
  case callback =>
    rw [exec_raise, raiseError_of_callback hset]
    exact ⟨fun hlong => callHost_emit_of_too_long hplan hb hlong _,
      fun hfits hradix => callHost_emit_of_radix_zero hplan hb hfits hradix _⟩
  case handler =>
    obtain ⟨k, hk⟩ := execDispatch_of_first_handler hl hdecode hf hwho
    rw [exec_dispatch, hk, ← hq]
    refine ⟨fun hlong => ?_, fun hfits hradix => ?_⟩
    · rw [callHost_emit_of_too_long hplan hb hlong, andThen_fault]
    · rw [callHost_emit_of_radix_zero hplan hb hfits hradix, andThen_fault]

end Sys2Proof.Machine
end

section
/-! PROOFS of the receiver (40_receive_fsm.md R120 to R130, 41_receive_buffer.md R140, R144): what each received byte
does, the two ways STOP ends, and the transition table over the implicit states. -/

namespace Sys2Proof.Machine

/-! ## The step (46_host_operations.md R220, R221) -/

/-- A transaction's operation takes any operands a host can give it. -/
theorem decodeTx_wf (tx : HostTx) : (decodeTx tx).wf = true := by
  cases tx <;> rfl

/-- Settles O5. -/
theorem stepPerformsNextTransaction : Obligations.StepPerformsNextTransaction :=
  ⟨fun _ => step_idle, fun _ tx _ h => ⟨decodeTx_wf tx, step_pending h⟩⟩

/-! ## The bytes that are no STOP -/

theorem exec_feed_start (s : State) : exec (.feed Config.startByte) s = .next s.clear := by
  rw [exec_feed, decodeByte_startByte, exec_rxStart]

/-- A byte that is no sentinel is the length while none is known (R126). -/
theorem exec_feed_length {b : Byte} {s : State} (hb : Config.isSentinel b = false) (hm : s.rxMsize = 0) :
    exec (.feed b) s = .next (s.latch b) := by
  obtain ⟨hstart, hstop⟩ := isSentinel_eq_false_iff.mp hb
  rw [exec_feed, decodeByte_of_not_sentinel hstart hstop, lenKnown_eq_false_iff.mpr hm, if_neg Bool.false_ne_true,
    exec_rxLen]

/-- A byte that is no sentinel is appended once the length is known (R128). -/
theorem exec_feed_body {b : Byte} {s : State} (hb : Config.isSentinel b = false) (hm : s.rxMsize ≠ 0) :
    exec (.feed b) s = bufAppend b s := by
  obtain ⟨hstart, hstop⟩ := isSentinel_eq_false_iff.mp hb
  rw [exec_feed, decodeByte_of_not_sentinel hstart hstop, if_pos (lenKnown_iff.mpr hm), exec_rxData]

/-- Settles O14: the length latched is the 0 that stood there. -/
theorem zeroLengthByteRelatches : Obligations.ZeroLengthByteRelatches := by
  intro s hm
  rw [exec_feed_length (by decide) hm, State.latch, ← hm]

theorem State.clear_cleared (s : State) : Cleared s.clear := ⟨rfl, rfl, Memory.read_nil⟩

/-- Settles O15: START clears, a length byte latches, and a body byte with room is stored at the cursor. -/
theorem feedOfAByteCompletes : Obligations.FeedOfAByteCompletes := by
  intro b s hmem
  refine ⟨?start, fun hb hm => ?length, fun hb hm hroom => ?body⟩
  case start =>
    rintro rfl
    exact ⟨s.clear, exec_feed_start s, s.clear_cleared, rfl⟩
  case length => exact ⟨s.latch b, exec_feed_length hb hm, rfl, rfl, fun _ => rfl, rfl⟩
  case body =>
    exact ⟨s.store b, (exec_feed_body hb hm).trans (bufAppend_of_room hroom), rfl, rfl, State.read_store_cursor hmem b,
      fun _ ha => State.read_store_other b ha, rfl⟩

/-! ## `BUF.CLEAR` and `BUF.GROW` -/

/-- Settles O24. -/
theorem bufClearZeroesTheAssembler : Obligations.BufClearZeroesTheAssembler := fun s =>
  ⟨s.clear, exec_bufClear s, s.clear_cleared, rfl, s.clear_frame⟩

theorem exec_bufGrow (s : State) : exec .bufGrow s = bufGrow s := rfl

/-- Settles O25: the grown state is `s.enlarge`, whose bytes are those of `s` below the old capacity and clear above. -/
theorem bufGrowDoublesAndCopies : Obligations.BufGrowDoublesAndCopies := by
  intro s
  rw [exec_bufGrow]
  refine ⟨fun hcap => ?grown, fun hcap => ?exhausted⟩
  case grown =>
    exact ⟨s.enlarge, if_pos hcap, rfl, fun _ => State.read_enlarge_of_lt, fun _ => Memory.read_below_ge, rfl, rfl,
      ⟨rfl, rfl, rfl⟩, ⟨rfl, rfl, rfl, rfl, rfl⟩, ⟨rfl, rfl, rfl⟩, rfl, rfl⟩
  case exhausted => exact if_neg (Bool.eq_false_iff.mp hcap)

/-! ## STOP (R124, R125) -/

theorem exec_rxStop (s : State) : exec .rxStop s = execRxStop s := rfl

theorem exec_feed_stop (s : State) : exec (.feed Config.stopByte) s = execRxStop s := by
  rw [exec_feed, decodeByte_stopByte, exec_rxStop]

/-- At the declared length the frame is taken, the assembler cleared, and the frame dispatched. -/
theorem execRxStop_of_complete {s : State} (hsize : s.rxBidx = s.rxMsize.toNat) (hcap : s.rxBidx ≤ s.rxCap) :
    execRxStop s = execDispatch (bodyBytes s s.rxBidx) (s.clear.emit (.frame (bodyBytes s s.rxBidx))) := by
  rw [execRxStop, if_pos (complete_iff.mpr hsize), ← hsize, memRead_of_le ((Nat.zero_add _).trans_le hcap)]
  rfl

/-- At another length the mismatch is raised on the cleared assembler. -/
theorem execRxStop_of_mismatch {s : State} (hsize : s.rxBidx ≠ s.rxMsize.toNat) (hcap : s.rxBidx ≤ s.rxCap) :
    execRxStop s = raiseError (.sizeMismatch s.rxMsize.toNat s.rxBidx (bodyBytes s s.rxBidx)) s.clear := by
  rw [execRxStop, if_neg (fun h => hsize (complete_iff.mp h)), memRead_of_le ((Nat.zero_add _).trans_le hcap)]
  rfl

/-- A complete frame shorter than the address field is reported after its `Frame` event (R183). -/
theorem execRxStop_of_runt {s : State} (hsize : s.rxBidx = s.rxMsize.toNat) (hcap : s.rxBidx ≤ s.rxCap)
    (hrunt : s.rxBidx < s.cfgAlen.toNat) :
    execRxStop s = raiseError (.runtFrame s.rxBidx s.cfgAlen.toNat (bodyBytes s s.rxBidx))
      (s.clear.emit (.frame (bodyBytes s s.rxBidx))) := by
  rw [execRxStop_of_complete hsize hcap, execDispatch_of_runt (by rwa [bodyBytes_length]), bodyBytes_length]
  rfl

/-- The cleared state with other outputs: nothing but the assembler, the plans and the events changed. -/
theorem State.clear_withOutputs_frame (s : State) (calls : List (List HostTx)) (es : List Event) :
    Cleared (s.clear.withOutputs calls es) ∧ (s.clear.withOutputs calls es).rxCap = s.rxCap ∧
      SameConfig s (s.clear.withOutputs calls es) ∧ SameTables s (s.clear.withOutputs calls es) ∧
      PlansLeft s (s.clear.withOutputs calls es) calls ∧ (s.clear.withOutputs calls es).ret = s.ret :=
  ⟨s.clear_cleared, rfl, ⟨rfl, rfl, rfl⟩, ⟨rfl, rfl, rfl, rfl, rfl⟩, ⟨rfl, rfl, rfl⟩, rfl⟩

/-- Settles O17: `u` is the cleared state with the `Frame` event. -/
theorem rxStopDispatchesTheFrame : Obligations.RxStopDispatchesTheFrame := by
  intro s hsize hcap
  obtain ⟨hcleared, hroom, hconfig, htables, hhost, hret⟩ :=
    s.clear_withOutputs_frame s.hostCalls [.frame (bodyBytes s s.rxBidx)]
  exact ⟨_, execRxStop_of_complete hsize hcap, hcleared, hroom, rfl, hret, hconfig, htables, hhost⟩

/-- Settles O18: the dispatch of the body, no handler making a call, is `resolve_of_quiet` on the cleared state. -/
theorem completedFrameReachesItsHandlers : Obligations.CompletedFrameReachesItsHandlers := by
  rintro i s a hi hsize hcap hlen hq rfl hf hslot
  have hstop : exec i s = execRxStop s := by
    rcases hi with rfl | rfl
    · exact exec_rxStop s
    · exact exec_feed_stop s
  have hdispatch := execDispatch_of_quiet (s := s.clear.emit (.frame (bodyBytes s s.rxBidx)))
    (by rwa [bodyBytes_length]) rfl hf hq hslot
  refine ⟨_, hstop.trans ((execRxStop_of_complete hsize hcap).trans hdispatch), ?_⟩
  rw [State.emit_eq_withOutputs, State.withOutputs_withOutputs]
  exact ⟨rfl, s.clear_withOutputs_frame _ _⟩

/-- Settles O19: STOP is `RAISE` on the cleared state, which answers what `RAISE` answers. -/
theorem rxStopReportsSizeMismatch : Obligations.RxStopReportsSizeMismatch := by
  rintro s e hsize hcap rfl
  have hraise := execRxStop_of_mismatch hsize hcap
  refine ⟨⟨s.clear, hraise, s.clear_cleared, rfl, s.clear_frame⟩, fun hsilent => ?silent,
    fun writes later hset hplan hb => ?writes⟩
  case silent =>
    exact ⟨_, hraise.trans (raiseError_of_silent (s := s.clear) hsilent _), rfl, s.clear_withOutputs_frame _ [_]⟩
  case writes =>
    exact ⟨_, hraise.trans (raiseError_of_writes (s := s.clear) hset hplan hb _), rfl, s.clear_withOutputs_frame _ _⟩

theorem toNat_pos_of_ne_zero {b : Byte} (h : b ≠ 0) : 0 < b.toNat :=
  Nat.pos_of_ne_zero fun h0 => h (BitVec.eq_of_toNat_eq h0)

/-- Settles O20: the frame is the empty body, a runt of any address length. -/
theorem stopWithoutLengthReportsRunt : Obligations.StopWithoutLengthReportsRunt := by
  intro s hm hidx halen
  have hpos : 0 < s.cfgAlen.toNat := toNat_pos_of_ne_zero halen
  have hraise := execRxStop_of_runt (by rw [hidx, hm]; rfl) (hidx ▸ Nat.zero_le _) (hidx ▸ hpos)
  rw [hidx] at hraise
  rw [exec_feed_stop]
  obtain ⟨hcleared, hroom, hconfig, htables, hhost, hret⟩ := s.clear_withOutputs_frame s.hostCalls [.frame []]
  refine ⟨⟨_, hraise, hcleared, hroom, rfl, hret, hconfig, htables, hhost⟩, fun hsilent => ?silent,
    fun writes later hset hplan hb => ?writes⟩
  case silent =>
    refine ⟨_, hraise.trans (raiseError_of_silent (s := s.clear.emit _) hsilent _), ?_⟩
    rw [State.emit_eq_withOutputs, State.emit_eq_withOutputs, State.withOutputs_withOutputs]
    exact ⟨rfl, s.clear_withOutputs_frame _ _⟩
  case writes =>
    refine ⟨_, hraise.trans (raiseError_of_writes (s := s.clear.emit _) hset hplan hb _), ?_⟩
    rw [State.emit_eq_withOutputs, State.withOutputs_withOutputs]
    exact ⟨rfl, s.clear_withOutputs_frame _ _⟩

/-- Settles O54: each error is a `RAISE` whose callback re-enters, and a dispatch ends in its first handler or in the
user handler behind a generic one that returned. -/
theorem handlersMayNotReenter : Obligations.HandlersMayNotReenter := by
  intro c rest later writes s hc hb
  refine ⟨fun hplan hset => ⟨?raise, ?mismatch, ?stopRunt, ?runt⟩,
    fun frame a hl ha hf => ⟨?first, fun before hg hu hbefore hplans => ?second⟩⟩
  case raise => exact raiseError_of_reentry hset hplan hb hc
  case mismatch =>
    intro hsize hcap
    exact (execRxStop_of_mismatch hsize hcap).trans (raiseError_of_reentry (s := s.clear) hset hplan hb hc _)
  case stopRunt =>
    intro hsize hcap hrunt
    exact (execRxStop_of_runt hsize hcap hrunt).trans
      (raiseError_of_reentry (s := s.clear.emit _) hset hplan hb hc _)
  case runt =>
    exact fun frame hrunt => (execDispatch_of_runt hrunt).trans (raiseError_of_reentry hset hplan hb hc _)
  case first =>
    intro hplan hhandler
    obtain ⟨who, hwho⟩ : ∃ who, who = Target.generic ∧ s.genSet = true ∨
        who = Target.user ∧ s.genSet = false ∧ s.userSlot a = true := by
      cases hg : s.genSet with
      | true => exact ⟨.generic, .inl ⟨rfl, rfl⟩⟩
      | false => exact ⟨.user, .inr ⟨rfl, rfl, hhandler.resolve_left (Bool.eq_false_iff.mp hg)⟩⟩
    obtain ⟨k, hk⟩ := execDispatch_of_first_handler hl ha hf hwho
    rw [exec_dispatch, hk, callHost_emit_of_reentry hplan hb hc, andThen_refused]
  case second =>
    subst ha
    rw [exec_dispatch, execDispatch_of_fits hl hf, resolve_of_generic_writes hg hplans hbefore,
      route_of_userSlot (s := s.withOutputs ..) hu]
    exact callHost_emit_of_reentry (s := s.withOutputs ..) rfl hb hc _

/-! ## The implicit states (10_state.md R32) -/

theorem phase_of_no_length {s : State} (h : s.rxMsize = 0) : s.phase = .waitLen := by
  rw [State.phase, lenKnown_eq_false_iff.mpr h, Bool.not_false, if_pos rfl]

/-- With the length known the phase compares the cursor with it. -/
theorem phase_of_length {s : State} (h : s.rxMsize ≠ 0) :
    s.phase = if s.rxBidx < s.rxMsize.toNat then .accum
      else if s.rxBidx = s.rxMsize.toNat then .full else .overrun := by
  rw [State.phase, lenKnown_iff.mpr h, Bool.not_true, if_neg Bool.false_ne_true]
  simp only [complete_iff]

theorem phase_eq_waitLen_iff {s : State} : s.phase = .waitLen ↔ s.rxMsize = 0 := by
  refine ⟨fun h => by_contra fun hm => ?_, phase_of_no_length⟩
  rw [phase_of_length hm] at h
  split_ifs at h

theorem phase_eq_accum_iff {s : State} : s.phase = .accum ↔ s.rxMsize ≠ 0 ∧ s.rxBidx < s.rxMsize.toNat := by
  by_cases hm : s.rxMsize = 0
  · simp [phase_of_no_length hm, hm]
  rw [phase_of_length hm, and_iff_right hm]
  split_ifs with hlt heq
  · simp [hlt]
  · simp [hlt]
  · simp [hlt]

theorem phase_eq_full_iff {s : State} : s.phase = .full ↔ s.rxMsize ≠ 0 ∧ s.rxBidx = s.rxMsize.toNat := by
  by_cases hm : s.rxMsize = 0
  · simp [phase_of_no_length hm, hm]
  rw [phase_of_length hm, and_iff_right hm]
  split_ifs with hlt heq
  · simp [hlt.ne]
  · simp [heq]
  · simp [heq]

theorem phase_eq_overrun_iff {s : State} : s.phase = .overrun ↔ s.rxMsize ≠ 0 ∧ s.rxMsize.toNat < s.rxBidx := by
  by_cases hm : s.rxMsize = 0
  · simp [phase_of_no_length hm, hm]
  rw [phase_of_length hm, and_iff_right hm]
  split_ifs with hlt heq
  · simp [hlt.le]
  · simp [heq]
  · exact iff_of_true rfl (by omega)

/-- An append counts the cursor up, keeps the declared length, and emits nothing (R128, R143). -/
theorem bufAppend_registers {b : Byte} {s t : State} (h : bufAppend b s = .next t) :
    t.rxMsize = s.rxMsize ∧ t.rxBidx = s.rxBidx + 1 ∧ t.events = s.events := by
  obtain ⟨-, rfl⟩ | ⟨-, -, -, rfl⟩ := bufAppend_eq_next h <;> exact ⟨rfl, rfl, rfl⟩

/-- However STOP ends, the receiver waits for a length. -/
theorem execRxStop_phase {s t : State} (h : execRxStop s = .next t) : t.phase = .waitLen := by
  apply phase_of_no_length
  obtain ⟨-, ⟨-, hdispatch⟩ | ⟨-, hraise⟩⟩ := execRxStop_eq_next h
  · rw [execDispatch_blockKept hdispatch]
    rfl
  · obtain ⟨hkept, -⟩ := raiseError_blockKept hraise
    rw [hkept]
    rfl

/-- Settles O21: the rows of STOP come from its two ends, those of a body byte from the registers after an append. -/
theorem transitionTable : Obligations.TransitionTable := by
  intro s b hs
  refine ⟨?start, ?stop, fun hb hphase => ?length, fun hb hphase t h => ?body⟩
  case start =>
    rintro rfl
    exact ⟨s.clear, exec_feed_start s, phase_of_no_length rfl, rfl⟩
  case stop =>
    rintro rfl t h
    rw [exec_feed_stop] at h
    refine ⟨execRxStop_phase h, fun hphase => ?waitLen, fun hphase => ?full, fun hphase => ?mismatch⟩
    case waitLen =>
      have hm := phase_eq_waitLen_iff.mp hphase
      have hidx := hs.cursor hm
      obtain ⟨halen, -⟩ := hs.alen
      have hpos : 0 < s.cfgAlen.toNat := toNat_pos_of_ne_zero halen
      rw [execRxStop_of_runt (by rw [hidx, hm]; rfl) hs.room (hidx ▸ hpos), hidx] at h
      obtain ⟨calls, txs, rfl⟩ := raiseError_eq_next h
      exact ⟨txs, List.append_assoc _ _ _⟩
    case full =>
      obtain ⟨-, hsize⟩ := phase_eq_full_iff.mp hphase
      rw [execRxStop_of_complete hsize hs.room, hsize] at h
      obtain ⟨es, hevents, -⟩ := execDispatch_events h
      exact ⟨_, es, h, s.clear_cleared, rfl, hevents, ⟨rfl, rfl, rfl⟩, ⟨rfl, rfl, rfl, rfl, rfl⟩, rfl, rfl, rfl⟩
    case mismatch =>
      have hsize : s.rxBidx ≠ s.rxMsize.toNat := by
        rcases hphase with haccum | hover
        · obtain ⟨-, hlt⟩ := phase_eq_accum_iff.mp haccum
          exact hlt.ne
        · obtain ⟨-, hlt⟩ := phase_eq_overrun_iff.mp hover
          exact hlt.ne'
      rw [execRxStop_of_mismatch hsize hs.room] at h
      obtain ⟨calls, txs, rfl⟩ := raiseError_eq_next h
      exact ⟨txs, rfl⟩
  case length =>
    have hm := phase_eq_waitLen_iff.mp hphase
    refine ⟨s.latch b, exec_feed_length hb hm, rfl, ?_⟩
    split_ifs with h0
    · exact phase_of_no_length h0
    · refine phase_eq_accum_iff.mpr ⟨h0, ?_⟩
      rw [State.latch_rxBidx, hs.cursor hm]
      exact toNat_pos_of_ne_zero h0
  case body =>
    have hm : s.rxMsize ≠ 0 := fun h0 => hphase (phase_of_no_length h0)
    rw [exec_feed_body hb hm] at h
    obtain ⟨hsize, hidx, hevents⟩ := bufAppend_registers h
    refine ⟨hevents, fun haccum => ?accum, fun hpast => ?past⟩
    case accum =>
      obtain ⟨-, hlt⟩ := phase_eq_accum_iff.mp haccum
      rw [phase_of_length (by rwa [hsize]), hsize, hidx]
      split_ifs with hmore hfull
      · rfl
      · rfl
      · omega
    case past =>
      refine phase_eq_overrun_iff.mpr ⟨by rwa [hsize], ?_⟩
      rw [hsize, hidx]
      rcases hpast with hfull | hover
      · obtain ⟨-, heq⟩ := phase_eq_full_iff.mp hfull
        omega
      · obtain ⟨-, hlt⟩ := phase_eq_overrun_iff.mp hover
        omega

end Sys2Proof.Machine
end

section
/-! PROOFS of frames received whole (40_receive_fsm.md R132, 41_receive_buffer.md R143 to R145): a frame fed byte by
byte is taken in across the buffer's growth, one byte a step, and is dispatched by its STOP; so is a frame that
`WRITE` sent. -/

namespace Sys2Proof.Machine

/-! ## The buffer grows as far as a frame needs (R145) -/

theorem capAllowed_mono {p : BuildParams} {c d : Nat} (hcd : c ≤ d) (h : capAllowed p d = true) :
    capAllowed p c = true := by
  cases hm : p.bufCapMax with
  | none => simp only [capAllowed, hm]
  | some m =>
    simp only [capAllowed, hm, decide_eq_true_eq] at h ⊢
    exact hcd.trans h

/-- A buffer that a body byte can fill grows to at most 256: its capacity is 32 doubled, below 253 (R25). -/
theorem Inv.grown_le {s : State} (h : Inv s) (hidx : s.rxBidx = s.rxCap) (hlt : s.rxBidx < 253) :
    Config.bufGrowFactor * s.rxCap ≤ 256 := by
  obtain ⟨k, hk⟩ := h.doubling
  simp only [Config.bufCapInit, Config.bufGrowFactor] at hk ⊢
  have hk3 : k < 3 := by
    by_contra hge
    have := Nat.pow_le_pow_right (n := 2) (by decide) (Nat.le_of_not_lt hge)
    omega
  have := Nat.pow_le_pow_right (n := 2) (by decide) (Nat.le_of_lt_succ hk3)
  omega

theorem Inv.capacity_pos {s : State} (h : Inv s) : 0 < s.rxCap := by
  obtain ⟨k, hk⟩ := h.doubling
  rw [hk]
  exact Nat.mul_pos (by decide) (Nat.pow_pos (by decide))

/-- An append that may grow stores the byte at the cursor: growth changes the capacity alone. -/
theorem bufAppend_stores {s : State} (h : Inv s)
    (hcap : s.rxBidx = s.rxCap → capAllowed s.build (Config.bufGrowFactor * s.rxCap) = true) (b : Byte) :
    ∃ c, bufAppend b s = .next { s.store b with rxCap := c } := by
  rcases Nat.lt_or_eq_of_le h.room with hfree | hfull
  · exact ⟨s.rxCap, bufAppend_of_room hfree⟩
  · refine ⟨s.enlarge.rxCap, (bufAppend_of_full hfull h.capacity_pos (hcap hfull)).trans ?_⟩
    rw [State.store, h.enlarge_rxBuf]
    rfl

/-- A stored byte stands behind the body bytes before it. -/
theorem bodyBytes_store {s : State} (hm : s.rxBuf.wf = true) (b : Byte) :
    bodyBytes (s.store b) (s.rxBidx + 1) = bodyBytes s s.rxBidx ++ [b] := by
  have hkept : (s.store b).rxBuf.readN 0 s.rxBidx = s.rxBuf.readN 0 s.rxBidx :=
    Memory.readN_congr fun i hi => State.read_store_other b (by omega)
  rw [bodyBytes, Memory.readN_succ, hkept, Nat.zero_add, State.read_store_cursor hm, bodyBytes]

/-! ## One byte a step -/

/-- The state with these transactions pending. -/
def State.awaiting (s : State) (later : List HostTx) : State := { s with hostIn := later }

/-- The next transaction is a received byte. -/
theorem step_feed {s : State} {b : Byte} {later : List HostTx} (h : s.hostIn = .feed b :: later) :
    step s = exec (.feed b) (s.awaiting later) := step_pending h

theorem Inv.awaiting {s : State} (h : Inv s) (later : List HostTx) : Inv (s.awaiting later) :=
  h.withHost later s.hostCalls s.events s.ret

theorem run_succ {k : Nat} {s t : State} (h : step s = .next t) :
    Host.Core.run Sys2Proof.core (k + 1) s = Host.Core.run Sys2Proof.core k t := run_of_step h

/-- A frame of declared length `size` is being received from `s` on: `got` are the body bytes taken in so far, `later`
the transactions pending, and nothing else has changed. -/
structure Receiving (s : State) (size : Byte) (got : List Byte) (later : List HostTx) (u : State) : Prop where
  inv : Inv u
  length : u.rxMsize = size
  body : bodyBytes u u.rxBidx = got
  pending : u.hostIn = later
  events : u.events = s.events
  config : SameConfig s u
  tables : SameTables s u
  build : u.build = s.build
  plans : u.hostCalls = s.hostCalls

namespace Receiving

variable {s u : State} {size : Byte} {got : List Byte} {later : List HostTx}

theorem cursor (h : Receiving s size got later u) : u.rxBidx = got.length := by
  rw [← h.body, bodyBytes_length]

/-- START and a length byte, whatever was being received before. -/
theorem start (hs : Inv s) (hsize : Config.isSentinel size = false)
    (hin : s.hostIn = .feed Config.startByte :: .feed size :: later) :
    ∃ u, Host.Core.run Sys2Proof.core 2 s = .next u ∧ Receiving s size [] later u := by
  have hclear := (step_feed hin).trans (exec_feed_start _)
  have hlatch := (step_feed (s := (s.awaiting (.feed size :: later)).clear) rfl).trans (exec_feed_length hsize rfl)
  refine ⟨_, (run_succ hclear).trans (run_succ hlatch), ?_⟩
  exact
    { inv := ((hs.awaiting _).clear.awaiting later).latch hsize rfl
      length := rfl
      body := rfl
      pending := rfl
      events := rfl
      config := ⟨rfl, rfl, rfl⟩
      tables := ⟨rfl, rfl, rfl, rfl, rfl⟩
      build := rfl
      plans := rfl }

/-- A body byte is taken in behind those before it. -/
theorem byte (hroom : RoomForFrames s.build) (hsize : size ≠ 0) {b : Byte} (hb : Config.isSentinel b = false)
    (hlt : got.length < 253) (h : Receiving s size got (.feed b :: later) u) :
    ∃ v, step u = .next v ∧ Receiving s size (got ++ [b]) later v := by
  have hinv : Inv (u.awaiting later) := h.inv.awaiting later
  have hm : (u.awaiting later).rxMsize ≠ 0 := h.length ▸ hsize
  have hgrow : (u.awaiting later).rxBidx = (u.awaiting later).rxCap → capAllowed (u.awaiting later).build _ = true :=
    fun hfull => capAllowed_mono (hinv.grown_le hfull (h.cursor.trans_lt hlt)) (h.build.symm ▸ hroom)
  obtain ⟨c, hc⟩ := bufAppend_stores hinv hgrow b
  refine ⟨_, (step_feed h.pending).trans ((exec_feed_body hb hm).trans hc), ?_⟩
  exact
    { inv := bufAppend_inv hinv hb hm hc
      length := h.length
      body := (bodyBytes_store h.inv.memory b).trans (congrArg (· ++ [b]) h.body)
      pending := rfl
      events := h.events
      config := h.config
      tables := h.tables
      build := h.build
      plans := h.plans }

/-- A run of body bytes, one a step, across the buffer's growth. -/
theorem bytes (hroom : RoomForFrames s.build) (hsize : size ≠ 0) {bs : List Byte} (hbs : sentinelFree bs = true)
    (hlen : got.length + bs.length ≤ 253) (h : Receiving s size got (bs.map .feed ++ later) u) :
    ∃ v, Host.Core.run Sys2Proof.core bs.length u = .next v ∧ Receiving s size (got ++ bs) later v := by
  induction bs generalizing got u with
  | nil => exact ⟨u, rfl, by rwa [List.append_nil]⟩
  | cons b bs ih =>
    obtain ⟨hb, hbs⟩ := List.forall_mem_cons.mp (sentinelFree_iff.mp hbs)
    rw [List.length_cons] at hlen
    obtain ⟨v, hstep, hv⟩ := h.byte hroom hsize hb (by omega)
    obtain ⟨w, hrun, hw⟩ := ih (sentinelFree_iff.mpr hbs) (by rw [List.length_append, List.length_singleton]; omega) hv
    rw [List.append_assoc, List.singleton_append] at hw
    exact ⟨w, (run_succ hstep).trans hrun, hw⟩

/-- The declared number of bytes taken in: the receiver is full. -/
theorem phase_full (hsize : size ≠ 0) (hlen : got.length = size.toNat) (h : Receiving s size got later u) :
    u.phase = .full := by
  refine phase_eq_full_iff.mpr ⟨h.length ▸ hsize, ?_⟩
  rw [h.cursor, h.length, hlen]

/-- The declared number of bytes taken in: STOP dispatches them from the cleared assembler. -/
theorem stop (hlen : got.length = size.toNat) (h : Receiving s size got (.feed Config.stopByte :: later) u) :
    step u = execDispatch got ((u.awaiting later).clear.emit (.frame got)) := by
  have hcomplete := execRxStop_of_complete (s := u.awaiting later)
    (h.cursor.trans (hlen.trans (congrArg BitVec.toNat h.length.symm))) h.inv.room
  have hbody : bodyBytes (u.awaiting later) (u.awaiting later).rxBidx = got := h.body
  rw [hbody] at hcomplete
  exact (step_feed h.pending).trans ((exec_feed_stop _).trans hcomplete)

/-- A frame that no built-in serves, received whole, the handlers making no call: the handlers' events follow the
frame. -/
theorem stop_of_quiet {a : Nat} (hsize : got.length = size.toNat) (hq : Quiet s) (hlen : s.cfgAlen.toNat ≤ got.length)
    (ha : a = decodeAddress got s.cfgAlen.toNat s.cfgAfac.toNat) (hf : addrFits s.build a = true)
    (hslot : s.userSlot a = true ∨ s.builtinSlot a = false)
    (h : Receiving s size got (.feed Config.stopByte :: later) u) :
    step u = .next ((u.awaiting later).clear.withOutputs u.hostCalls
      (.frame got :: handlerEvents s a (got.drop s.cfgAlen.toNat))) := by
  obtain ⟨halen, hafac, -⟩ := h.config
  obtain ⟨hgen, -, hcap, htbl, hbi⟩ := h.tables
  have huser := userSlot_congr hcap htbl a
  rw [← halen, ← hafac] at ha
  rw [← halen] at hlen ⊢
  rw [← huser, ← builtinSlot_congr hbi] at hslot
  have hdispatch := execDispatch_of_quiet (s := (u.awaiting later).clear.emit (.frame got)) hlen ha
    (h.build.symm ▸ hf) (h.plans.trans hq) hslot
  have hevents : handlerEvents s a (got.drop u.cfgAlen.toNat) = handlerEvents u a (got.drop u.cfgAlen.toNat) := by
    rw [handlerEvents, handlerEvents, hgen, huser]
  rw [h.stop hsize, hdispatch, hevents, State.emit_eq_withOutputs, State.withOutputs_withOutputs]
  rfl

end Receiving

theorem lengthByte_ne_zero {n : Nat} (h1 : 1 ≤ n) (h253 : n ≤ 253) : (BitVec.ofNat 8 n : Byte) ≠ 0 := fun h0 => by
  have hn := lengthByte_toNat h253
  rw [h0] at hn
  exact Nat.ne_of_gt h1 hn.symm

/-- The host's transactions of a framed body, up to its STOP: after `body.length + 2` steps the body is taken in. -/
theorem receiving_of_frame {s : State} {body : List Byte} {later : List HostTx} (hs : Inv s)
    (hroom : RoomForFrames s.build) (h1 : 1 ≤ body.length) (h253 : body.length ≤ 253) (hfree : sentinelFree body = true)
    (hin : s.hostIn =
      (Config.startByte :: BitVec.ofNat 8 body.length :: (body ++ [Config.stopByte])).map .feed ++ later) :
    ∃ t, Host.Core.run Sys2Proof.core (body.length + 2) s = .next t ∧
      Receiving s (BitVec.ofNat 8 body.length) body (.feed Config.stopByte :: later) t := by
  obtain ⟨u, hrun, hu⟩ := Receiving.start hs (lengthByte_not_sentinel h253)
    (later := body.map .feed ++ .feed Config.stopByte :: later) (by simpa using hin)
  obtain ⟨t, hrun', ht⟩ := hu.bytes hroom (lengthByte_ne_zero h1 h253) hfree (by simpa using h253)
  refine ⟨t, ?_, ht⟩
  rw [Nat.add_comm]
  exact (run_add hrun).trans hrun'

/-- Settles O22: the body is taken in by `receiving_of_frame`, and `Receiving.stop` dispatches it. -/
theorem frameFedByteByByteIsDispatched : Obligations.FrameFedByteByByteIsDispatched := by
  intro s body later hs hroom h1 h253 hfree hin
  obtain ⟨t, hrun, ht⟩ := receiving_of_frame hs hroom h1 h253 hfree hin
  have hsize := (lengthByte_toNat h253).symm
  exact ⟨t, _, hrun, ht.events, ht.config, ht.tables, ht.phase_full (lengthByte_ne_zero h1 h253) hsize, ht.stop hsize,
    (t.awaiting later).clear_cleared, congrArg (· ++ _) ht.events, ht.config, ht.tables, ht.build, rfl, ht.plans⟩

/-! ## What one instance writes another receives (R132, R159, R171) -/

/-- Settles O23: the bytes `WRITE` sent are the frame of `wireBody`, whose digits lie below the radix and so below both
sentinels; its address field decodes to `a mod F^L`. -/
theorem receiverHandsOverWhatWasWritten : Obligations.ReceiverHandsOverWhatWasWritten := by
  rintro w w' s a a' p bytes hwrite hbytes hs hroom ⟨halen, hafac, -⟩ hgen hq hlen hp hin rfl hf hslot
  obtain ⟨-, hradix, rfl⟩ := writeFrame_eq_next hwrite
  have hradix0 : 0 < s.cfgAfac.toNat := toNat_pos_of_ne_zero (hafac ▸ hradix)
  have hradix254 : s.cfgAfac.toNat < 254 := isSentinel_eq_false_iff_toNat.mp hs.afac
  obtain ⟨hlen0, -⟩ := hs.alen
  have hlen1 : 0 < s.cfgAlen.toNat := toNat_pos_of_ne_zero hlen0
  rw [← halen, ← hafac, State.emit_events, List.append_cancel_left_eq, List.singleton_inj, Event.tx.injEq] at hbytes
  rw [← hbytes, encodeWire_eq_wireBody] at hin ⊢
  generalize hbody : wireBody s.cfgAlen.toNat s.cfgAfac.toNat a p = body at hin ⊢
  have hbodyLen : body.length = s.cfgAlen.toNat + p.length := hbody ▸ wireBody_length ..
  have hbodyFree : sentinelFree body = true := hbody ▸ wireBody_sentinelFree hradix0 hradix254.le hp
  have hbodyDrop : body.drop s.cfgAlen.toNat = p := hbody ▸ wireBody_drop ..
  have haddress : a % s.cfgAfac.toNat ^ s.cfgAlen.toNat = decodeAddress body s.cfgAlen.toNat s.cfgAfac.toNat :=
    hbody ▸ (decodeAddress_wireBody p hradix0 (by omega)).symm
  obtain ⟨t, hrun, ht⟩ := receiving_of_frame (later := []) hs hroom (by omega) (by omega) hbodyFree
    (by rw [List.append_nil]; exact hin)
  have hstop := ht.stop_of_quiet (lengthByte_toNat (by omega)).symm hq (by omega) haddress hf hslot
  have hlength : (Config.startByte :: BitVec.ofNat 8 body.length :: (body ++ [Config.stopByte])).length =
      body.length + 2 + 1 := by simp
  rw [hlength]
  refine ⟨_, body, (run_add hrun).trans (run_succ hstop), ?_, hbodyDrop, (t.awaiting []).clear_cleared, ht.config,
    ht.tables, rfl⟩
  rw [State.withOutputs_events, hbodyDrop]
  exact congrArg (· ++ _) ht.events

end Sys2Proof.Machine
end

section
/-! PROOFS of the rules of the whole machine (10_state.md R25 to R37, 60_exceptions.md R248): what changes a
configuration register, what every step keeps, and what it reports. -/

namespace Sys2Proof.Machine

/-! ## The configuration (R27 to R29) -/

theorem sameConfig_rfl (s : State) : SameConfig s s := ⟨rfl, rfl, rfl⟩

theorem bufAppend_sameConfig {b : Byte} {s t : State} (h : bufAppend b s = .next t) : SameConfig s t := by
  obtain ⟨-, rfl⟩ | ⟨-, -, -, rfl⟩ := bufAppend_eq_next h
  · obtain ⟨-, hconfig, -⟩ := s.store_frame b
    exact hconfig
  · obtain ⟨-, hconfig, -⟩ := s.enlarge_store_frame b
    exact hconfig

/-- A byte that is not STOP reaches no built-in command. -/
theorem execFeed_sameConfig {b : Byte} {s t : State} (hb : b ≠ Config.stopByte) (h : execFeed b s = .next t) :
    SameConfig s t := by
  obtain ⟨-, rfl⟩ | ⟨hstop, -⟩ | ⟨-, -, happend⟩ | ⟨-, -, rfl⟩ := execFeed_eq_next h
  · exact sameConfig_rfl s
  · exact absurd hstop hb
  · exact bufAppend_sameConfig happend
  · exact sameConfig_rfl s

/-- A payload with a first byte is what a frame longer than the address field has. -/
theorem lt_length_of_head?_drop {n : Nat} {frame : List Byte} {v : Byte} (h : (frame.drop n).head? = some v) :
    n < frame.length := by
  by_contra hle
  rw [List.drop_eq_nil_of_le (Nat.le_of_not_lt hle)] at h
  cases h

/-- Settles O55: a transaction that is no `RESET` and no STOP dispatches nothing; a dispatch makes one `ConfigStep`,
each of which leaves two registers as they were. -/
theorem configurationChangesOnlyThroughItsCommand : Obligations.ConfigurationChangesOnlyThroughItsCommand := by
  refine ⟨fun tx s t hreset hstop h => ?transactions, ?dispatch⟩
  case transactions =>
    cases tx with
    | feed b => exact execFeed_sameConfig (fun hb => hstop (congrArg HostTx.feed hb)) h
    | write a p =>
      obtain ⟨-, -, rfl⟩ := writeFrame_eq_next h
      exact sameConfig_rfl s
    | register a =>
      cases h
      obtain ⟨-, -, -, -, hconfig, -⟩ := s.registerSlot_frame a
      exact hconfig
    | setGeneric on =>
      cases h
      exact sameConfig_rfl s
    | setErrcb =>
      cases h
      exact sameConfig_rfl s
    | reset => exact absurd rfl hreset
  case dispatch =>
    rintro frame s t a rfl h
    obtain ⟨hl, hf, hg⟩ | ⟨-, hconfig⟩ := execDispatch_configStep h
    · exact ⟨fun hne => absurd hl hne, fun hne => absurd hf hne, fun hne => absurd hg hne⟩
    cases hconfig with
    | same hsame =>
      obtain ⟨hl, hf, hg⟩ := hsame
      exact ⟨fun hne => absurd hl hne, fun hne => absurd hf hne, fun hne => absurd hg hne⟩
    | alen v ha hu hp _ hf hg =>
      exact ⟨fun _ => ⟨ha, hu, lt_length_of_head?_drop hp⟩, fun hne => absurd hf hne, fun hne => absurd hg hne⟩
    | afac v ha hu hp _ hl hg =>
      exact ⟨fun hne => absurd hl hne, fun _ => ⟨ha, hu, lt_length_of_head?_drop hp⟩, fun hne => absurd hg hne⟩
    | logen ha hu hl hf => exact ⟨fun hne => absurd hl hne, fun hne => absurd hf hne, fun _ => ⟨ha, hu⟩⟩

/-! ## Registrations and capacities (R25, R34, R35, R37) -/

/-- What every step but a RESET keeps of `s`: no capacity shrinks, the callback and the occupied slots stay, and the
built-in table and the build parameters are constant. -/
def RegistrationsKept (s t : State) : Prop :=
  s.rxCap ≤ t.rxCap ∧ s.tblCap ≤ t.tblCap ∧ (s.errcbSet = true → t.errcbSet = true) ∧
    (∀ a, s.userSlot a = true → t.userSlot a = true) ∧ t.bi = s.bi ∧ t.build = s.build

/-- With the tables as they were only the buffer's capacity and the build parameters are left to check. -/
theorem RegistrationsKept.of_sameTables {s t : State} (h : SameTables s t) (hcap : s.rxCap ≤ t.rxCap)
    (hbuild : t.build = s.build) : RegistrationsKept s t := by
  obtain ⟨-, herr, htblCap, htbl, hbi⟩ := h
  exact ⟨hcap, htblCap.ge, herr.trans, fun a => (userSlot_congr htblCap htbl a).trans, hbi, hbuild⟩

theorem registerSlot_tblCap_ge (s : State) (a : Nat) : s.tblCap ≤ (s.registerSlot a).tblCap := by
  rcases Nat.lt_or_ge a s.tblCap with hin | hout
  · exact (State.registerSlot_tblCap_of_lt hin).ge
  · rw [State.registerSlot_tblCap_of_le hout]
    omega

theorem registerSlot_registrationsKept (s : State) (a : Nat) : RegistrationsKept s (s.registerSlot a) := by
  refine ⟨(s.registerSlot_rxCap a).ge, registerSlot_tblCap_ge s a, (s.registerSlot_errcbSet a).trans, fun k hk => ?_,
    s.registerSlot_bi a, s.registerSlot_build a⟩
  by_cases hka : k = a
  · rw [hka]
    exact s.registerSlot_userSlot_self a
  · exact (s.registerSlot_userSlot_other hka).trans hk

theorem BlockKept.rxCap_eq {s t : State} (h : BlockKept s t) : t.rxCap = s.rxCap := by rw [h]

theorem BlockKept.build_eq {s t : State} (h : BlockKept s t) : t.build = s.build := by rw [h]

/-- A received byte can only make the buffer grow. -/
theorem execFeed_capacity {b : Byte} {s t : State} (h : execFeed b s = .next t) :
    s.rxCap ≤ t.rxCap ∧ t.build = s.build := by
  obtain ⟨-, rfl⟩ | ⟨-, hstop⟩ | ⟨-, -, happend⟩ | ⟨-, -, rfl⟩ := execFeed_eq_next h
  · exact ⟨Nat.le_refl _, rfl⟩
  · obtain ⟨-, ⟨-, hdispatch⟩ | ⟨-, hraise⟩⟩ := execRxStop_eq_next hstop
    · have hkept := execDispatch_blockKept hdispatch
      exact ⟨hkept.rxCap_eq.ge, hkept.build_eq⟩
    · obtain ⟨hkept, -⟩ := raiseError_blockKept hraise
      exact ⟨hkept.rxCap_eq.ge, hkept.build_eq⟩
  · obtain ⟨-, rfl⟩ | ⟨-, -, -, rfl⟩ := bufAppend_eq_next happend
    · exact ⟨Nat.le_refl _, rfl⟩
    · exact ⟨Nat.le_mul_of_pos_left _ (by decide), rfl⟩
  · exact ⟨Nat.le_refl _, rfl⟩

theorem exec_decodeTx_registrationsKept {tx : HostTx} {s t : State} (htx : tx ≠ .reset)
    (h : exec (decodeTx tx) s = .next t) : RegistrationsKept s t := by
  cases tx with
  | feed b =>
    obtain ⟨hcap, hbuild⟩ := execFeed_capacity h
    exact .of_sameTables (execFeed_sameTables h) hcap hbuild
  | write a p =>
    obtain ⟨-, -, rfl⟩ := writeFrame_eq_next h
    exact .of_sameTables (s.emit_sameTables _) (Nat.le_refl _) rfl
  | register a =>
    cases h
    exact registerSlot_registrationsKept s a
  | setGeneric on =>
    cases h
    exact ⟨Nat.le_refl _, Nat.le_refl _, id, fun _ => id, rfl, rfl⟩
  | setErrcb =>
    cases h
    exact ⟨Nat.le_refl _, Nat.le_refl _, fun _ => rfl, fun _ => id, rfl, rfl⟩
  | reset => exact absurd rfl htx

/-- Settles O56: a step is idle or performs one transaction, which is no `RESET`. -/
theorem everyStepKeepsRegistrations : Obligations.EveryStepKeepsRegistrations := by
  intro s t h hreset
  obtain ⟨-, rfl⟩ | ⟨tx, later, hpending, hexec⟩ := step_eq_next h
  · exact ⟨Nat.le_refl _, Nat.le_refl _, id, fun _ => id, rfl, rfl⟩
  · have htx : tx ≠ .reset := by rintro rfl; exact hreset (by rw [hpending, List.head?_cons])
    exact exec_decodeTx_registrationsKept (s := s.awaiting later) htx hexec

/-! ## Events of one step (R130, R248) -/

/-- Of a step's events at most one reports an error, and only the first can be a completed frame. -/
def OneReport (es : List Event) : Prop := es.countP Event.isError ≤ 1 ∧ ∀ e ∈ es.tail, e.isFrame = false

theorem OneReport.nil : OneReport [] := ⟨Nat.zero_le 1, by simp⟩

/-- A completed frame goes before the events of its dispatch. -/
theorem OneReport.frame_cons {es : List Event} {body : List Byte} (herror : es.countP Event.isError ≤ 1)
    (hframe : ∀ e ∈ es, e.isFrame = false) : OneReport (.frame body :: es) :=
  ⟨by rwa [List.countP_cons_of_neg (by exact Bool.false_ne_true)], hframe⟩

theorem execFeed_events {b : Byte} {s t : State} (h : execFeed b s = .next t) :
    ∃ es, t.events = s.events ++ es ∧ OneReport es ∧ (b ≠ Config.stopByte → es = []) := by
  obtain ⟨-, rfl⟩ | ⟨hstop, hrun⟩ | ⟨-, -, happend⟩ | ⟨-, -, rfl⟩ := execFeed_eq_next h
  · exact ⟨[], (List.append_nil _).symm, .nil, fun _ => rfl⟩
  · obtain ⟨-, ⟨-, hdispatch⟩ | ⟨-, hraise⟩⟩ := execRxStop_eq_next hrun
    · obtain ⟨es, hevents, herror, hframe⟩ := execDispatch_events hdispatch
      exact ⟨_, hevents.trans (List.append_assoc _ _ _), .frame_cons herror hframe, fun hb => absurd hstop hb⟩
    · obtain ⟨es, hevents, herror, hframe⟩ := raiseError_events hraise
      exact ⟨es, hevents, ⟨herror, fun e he => hframe e (List.mem_of_mem_tail he)⟩, fun hb => absurd hstop hb⟩
  · obtain ⟨-, -, hevents⟩ := bufAppend_registers happend
    exact ⟨[], hevents.trans (List.append_nil _).symm, .nil, fun _ => rfl⟩
  · exact ⟨[], (List.append_nil _).symm, .nil, fun _ => rfl⟩

theorem exec_decodeTx_events {tx : HostTx} {s t : State} (h : exec (decodeTx tx) s = .next t) :
    ∃ es, t.events = s.events ++ es ∧ OneReport es ∧ ∀ b, tx = .feed b → b ≠ Config.stopByte → es = [] := by
  cases tx with
  | feed b =>
    obtain ⟨es, hevents, hreport, hsilent⟩ := execFeed_events h
    refine ⟨es, hevents, hreport, ?_⟩
    rintro b' ⟨⟩
    exact hsilent
  | write a p =>
    obtain ⟨-, -, rfl⟩ := writeFrame_eq_next h
    exact ⟨[.tx _], rfl, ⟨Nat.zero_le 1, by simp⟩, by simp⟩
  | register a =>
    cases h
    exact ⟨[], by simp, .nil, by simp⟩
  | setGeneric on =>
    cases h
    exact ⟨[], by simp, .nil, by simp⟩
  | setErrcb =>
    cases h
    exact ⟨[], by simp, .nil, by simp⟩
  | reset =>
    cases h
    exact ⟨[], by simp, .nil, by simp⟩

/-- Settles O57: an idle step emits nothing, and a step with a transaction emits that transaction's events. -/
theorem eachStepReportsAtMostOneError : Obligations.EachStepReportsAtMostOneError := by
  intro s t h
  obtain ⟨-, rfl⟩ | ⟨tx, later, hpending, hexec⟩ := step_eq_next h
  · obtain ⟨herror, hframe⟩ := OneReport.nil
    exact ⟨[], (List.append_nil _).symm, herror, hframe, fun _ _ _ => rfl⟩
  · obtain ⟨es, hevents, ⟨herror, hframe⟩, hsilent⟩ := exec_decodeTx_events hexec
    refine ⟨es, hevents, herror, hframe, fun b hb => hsilent b ?_⟩
    rw [hpending, List.head?_cons] at hb
    exact Option.some.inj hb

end Sys2Proof.Machine
end

section
/-! PROOFS of the stops no step reaches (00_scope.md R10, 20_memory.md R65): from a state of the invariant every
access lies inside the buffer and no short field is decoded. -/

namespace Sys2Proof.Machine

/-- The outcome is none of the model's own stops (logs 6, 7). -/
def ModelStopFree (x : Out) : Prop := (∀ happened, x ≠ .fault (.bufferRange happened)) ∧ x ≠ .refused .shortField

namespace ModelStopFree

theorem next (s : State) : ModelStopFree (.next s) := by simp [ModelStopFree]

theorem andThen {x : Out} {f : State → Out} (hx : ModelStopFree x) (hf : ∀ u, ModelStopFree (f u)) :
    ModelStopFree (andThen x f) := by
  cases x with
  | next u => exact hf u
  | fault r => exact hx
  | refused r => exact hx

end ModelStopFree

/-- `WRITE` stops with its own two faults only. -/
theorem writeFrame_modelStopFree (a : Nat) (p : List Byte) (s : State) : ModelStopFree (writeFrame a p s) := by
  rcases Nat.lt_or_ge 255 (s.cfgAlen.toNat + p.length) with hlong | hfits
  · rw [writeFrame_of_too_long hlong]
    simp [ModelStopFree]
  · by_cases hradix : s.cfgAfac = 0
    · rw [writeFrame_of_radix_zero hfits hradix]
      simp [ModelStopFree]
    · rw [writeFrame_of_bounds hfits hradix]
      exact .next _

/-- A handler's calls stop with a fault of `WRITE` or the refusal of any other call. -/
theorem runHostCalls_modelStopFree (calls : List HostTx) (s : State) : ModelStopFree (runHostCalls calls s) := by
  induction calls generalizing s with
  | nil => exact .next s
  | cons c calls ih =>
    by_cases hc : ∃ a p, c = .write a p
    · obtain ⟨a, p, rfl⟩ := hc
      exact (writeFrame_modelStopFree a p s).andThen ih
    · rw [runHostCalls_of_reentry fun a p h => hc ⟨a, p, h⟩]
      simp [ModelStopFree]

theorem callHost_modelStopFree (s : State) : ModelStopFree (callHost s) := by
  cases h : s.hostCalls with
  | nil =>
    rw [callHost_of_quiet h]
    exact .next s
  | cons calls later =>
    rw [callHost_of_cons h]
    exact runHostCalls_modelStopFree calls _

theorem raiseError_modelStopFree (e : ErrorRec) (s : State) : ModelStopFree (raiseError e s) := by
  unfold raiseError
  split_ifs
  · exact callHost_modelStopFree _
  · exact .next _

theorem invokeGeneric_modelStopFree (a : Nat) (p : List Byte) (s : State) : ModelStopFree (invokeGeneric a p s) := by
  unfold invokeGeneric
  split_ifs
  · exact callHost_modelStopFree _
  · exact .next _

/-- Of the built-in commands only `CMD9` can stop, as `WRITE` does. -/
theorem runBuiltin_modelStopFree (a : Nat) (p : List Byte) (s : State) : ModelStopFree (runBuiltin a p s) := by
  by_cases h9 : a = 9
  · rw [h9]
    exact writeFrame_modelStopFree 9 _ s
  · obtain ⟨t, ht⟩ := runBuiltin_answers h9 p s
    rw [ht]
    exact .next t

theorem route_modelStopFree (a : Nat) (p : List Byte) (s : State) : ModelStopFree (route a p s) := by
  unfold route
  split_ifs
  · exact callHost_modelStopFree _
  · exact runBuiltin_modelStopFree a p _
  · exact .next s

/-- The address field that a dispatch decodes has the length it needs. -/
theorem execDispatch_modelStopFree (frame : List Byte) (s : State) : ModelStopFree (execDispatch frame s) := by
  rcases Nat.lt_or_ge frame.length s.cfgAlen.toNat with hrunt | hlen
  · rw [execDispatch_of_runt hrunt]
    exact raiseError_modelStopFree _ s
  · cases hf : addrFits s.build (decodeAddress frame s.cfgAlen.toNat s.cfgAfac.toNat) with
    | true =>
      rw [execDispatch_of_fits hlen hf]
      exact (invokeGeneric_modelStopFree _ _ s).andThen (route_modelStopFree _ _)
    | false =>
      rw [execDispatch_of_overflow hlen hf]
      simp [ModelStopFree]

/-- STOP reads bytes below the cursor, so inside the buffer. -/
theorem execRxStop_modelStopFree {s : State} (h : Inv s) : ModelStopFree (execRxStop s) := by
  by_cases hsize : s.rxBidx = s.rxMsize.toNat
  · rw [execRxStop_of_complete hsize h.room]
    exact execDispatch_modelStopFree _ _
  · rw [execRxStop_of_mismatch hsize h.room]
    exact raiseError_modelStopFree _ _

/-- An append stores at the cursor of a buffer with room, which growth gives. -/
theorem bufAppend_modelStopFree {s : State} (h : Inv s) (b : Byte) : ModelStopFree (bufAppend b s) := by
  by_cases hcap : s.rxBidx = s.rxCap → capAllowed s.build (Config.bufGrowFactor * s.rxCap) = true
  · obtain ⟨c, hc⟩ := bufAppend_stores h hcap b
    rw [hc]
    exact .next _
  · obtain ⟨hfull, hrefused⟩ := Classical.not_imp.mp hcap
    rw [bufAppend_of_exhausted hfull (Bool.eq_false_iff.mpr hrefused)]
    simp [ModelStopFree]

theorem exec_decodeTx_modelStopFree {s : State} (h : Inv s) (tx : HostTx) : ModelStopFree (exec (decodeTx tx) s) := by
  cases tx with
  | feed b =>
    change ModelStopFree (execFeed b s)
    unfold execFeed
    split_ifs
    · exact .next _
    · exact execRxStop_modelStopFree h
    · exact bufAppend_modelStopFree h b
    · exact .next _
  | write a p => exact writeFrame_modelStopFree a p s
  | register a => exact .next _
  | setGeneric on => exact .next _
  | setErrcb => exact .next _
  | reset => exact .next _

/-- Settles O58: a step is idle or performs a transaction from a state of the invariant. -/
theorem stopsOfTheModelAreUnreachable : Obligations.StopsOfTheModelAreUnreachable := by
  intro s hs
  cases hin : s.hostIn with
  | nil =>
    rw [step_idle hin]
    exact ModelStopFree.next s
  | cons tx later =>
    rw [step_pending hin]
    exact exec_decodeTx_modelStopFree (hs.awaiting later) tx

end Sys2Proof.Machine
end

section
/-! PROOFS that the hidden capacities are not observed (10_state.md R44): an operation that neither grows the buffer
nor the table answers the same in other capacities, those two aside, and growth changes the capacities alone. -/

namespace Sys2Proof.Machine

/-- The state with other capacities. -/
def State.withCaps (s : State) (c k : Nat) : State := { s with rxCap := c, tblCap := k }

/-- What an outcome is with its next state changed. -/
def mapNext (g : State → State) : Out → Out
  | .next s => .next (g s)
  | .fault r => .fault r
  | .refused r => .refused r

theorem differInCapacity_iff {s t : State} : DifferInCapacity s t ↔ t = s.withCaps t.rxCap t.tblCap := Iff.rfl

/-- Any two choices of capacities. -/
theorem differInCapacity_withCaps (s : State) (c k c' k' : Nat) :
    DifferInCapacity (s.withCaps c k) (s.withCaps c' k') := rfl

theorem sameOutcome_withCaps (x : Out) (c k : Nat) : SameOutcome x (mapNext (·.withCaps c k) x) := by
  cases x with
  | next s => exact differInCapacity_withCaps s s.rxCap s.tblCap c k
  | fault r => rfl
  | refused r => rfl

/-- Sequencing in other capacities. -/
theorem andThen_mapNext {x : Out} {f g : State → Out} {h : State → State}
    (hf : ∀ u, x = .next u → g (h u) = mapNext h (f u)) :
    andThen (mapNext h x) g = mapNext h (andThen x f) := by
  cases x with
  | next u => exact hf u rfl
  | fault r => rfl
  | refused r => rfl

/-! ## Operations that read no capacity -/

section

variable (c k : Nat)

theorem writeFrame_withCaps (a : Nat) (p : List Byte) (s : State) :
    writeFrame a p (s.withCaps c k) = mapNext (·.withCaps c k) (writeFrame a p s) := by
  rcases Nat.lt_or_ge 255 (s.cfgAlen.toNat + p.length) with hlong | hfits
  · rw [writeFrame_of_too_long hlong, writeFrame_of_too_long (s := s.withCaps c k) hlong]
    rfl
  · by_cases hradix : s.cfgAfac = 0
    · rw [writeFrame_of_radix_zero hfits hradix, writeFrame_of_radix_zero (s := s.withCaps c k) hfits hradix]
      rfl
    · rw [writeFrame_of_bounds hfits hradix, writeFrame_of_bounds (s := s.withCaps c k) hfits hradix]
      rfl

theorem runHostCalls_withCaps (calls : List HostTx) (s : State) :
    runHostCalls calls (s.withCaps c k) = mapNext (·.withCaps c k) (runHostCalls calls s) := by
  induction calls generalizing s with
  | nil => rfl
  | cons tx calls ih =>
    by_cases hwrite : ∃ a p, tx = .write a p
    · obtain ⟨a, p, rfl⟩ := hwrite
      rw [runHostCalls, runHostCalls, writeFrame_withCaps]
      exact andThen_mapNext fun u _ => ih u
    · have hother : ∀ a p, tx ≠ .write a p := fun a p h => hwrite ⟨a, p, h⟩
      rw [runHostCalls_of_reentry hother, runHostCalls_of_reentry hother]
      rfl

theorem callHost_withCaps (s : State) : callHost (s.withCaps c k) = mapNext (·.withCaps c k) (callHost s) := by
  cases h : s.hostCalls with
  | nil =>
    rw [callHost_of_quiet h, callHost_of_quiet (s := s.withCaps c k) h]
    rfl
  | cons calls later =>
    rw [callHost_of_cons h, callHost_of_cons (s := s.withCaps c k) h]
    exact runHostCalls_withCaps c k calls { s with hostCalls := later }

theorem raiseError_withCaps (e : ErrorRec) (s : State) :
    raiseError e (s.withCaps c k) = mapNext (·.withCaps c k) (raiseError e s) := by
  cases h : s.errcbSet with
  | true =>
    rw [raiseError_of_callback h, raiseError_of_callback (s := s.withCaps c k) h]
    exact callHost_withCaps c k (s.emit _)
  | false =>
    rw [raiseError_of_silent (.inl h), raiseError_of_silent (s := s.withCaps c k) (.inl h)]
    rfl

theorem invokeGeneric_withCaps (a : Nat) (p : List Byte) (s : State) :
    invokeGeneric a p (s.withCaps c k) = mapNext (·.withCaps c k) (invokeGeneric a p s) := by
  cases h : s.genSet with
  | true =>
    rw [invokeGeneric_of_set h, invokeGeneric_of_set (s := s.withCaps c k) h]
    exact callHost_withCaps c k (s.emit _)
  | false =>
    rw [invokeGeneric_of_unset h, invokeGeneric_of_unset (s := s.withCaps c k) h]
    rfl

/-- A built-in command sets its register or, as `CMD9`, writes a frame. -/
theorem runBuiltin_withCaps (a : Nat) (p : List Byte) (s : State) :
    runBuiltin a p (s.withCaps c k) = mapNext (·.withCaps c k) (runBuiltin a p s) := by
  unfold runBuiltin
  split
  case h_1 => cases p <;> rfl
  case h_2 => cases p <;> rfl
  case h_10 => exact writeFrame_withCaps c k 9 _ s
  all_goals rfl

/-- Routing reads the table's slot count, which the occupied slots hide. -/
theorem route_withCaps {a : Nat} {s : State} (hslot : (s.withCaps c k).userSlot a = s.userSlot a) (p : List Byte) :
    route a p (s.withCaps c k) = mapNext (·.withCaps c k) (route a p s) := by
  cases hu : s.userSlot a with
  | true =>
    rw [route_of_userSlot hu, route_of_userSlot (hslot.trans hu)]
    exact callHost_withCaps c k (s.emit _)
  | false =>
    cases hb : s.builtinSlot a with
    | true =>
      rw [route_of_builtin hu hb, route_of_builtin (hslot.trans hu) hb]
      exact runBuiltin_withCaps c k a p (s.emit _)
    | false =>
      rw [route_of_none hu hb, route_of_none (hslot.trans hu) hb]
      rfl

theorem resolve_withCaps {a : Nat} {s : State} (hslot : (s.withCaps c k).userSlot a = s.userSlot a) (p : List Byte) :
    resolve a p (s.withCaps c k) = mapNext (·.withCaps c k) (resolve a p s) := by
  rw [resolve, resolve, invokeGeneric_withCaps]
  refine andThen_mapNext fun u hu => route_withCaps c k ?_ p
  obtain ⟨-, -, hcap, htbl, -⟩ := invokeGeneric_sameTables hu
  have hcaps := userSlot_congr (s := s.withCaps c k) (t := u.withCaps c k) rfl htbl a
  exact hcaps.trans (hslot.trans (userSlot_congr hcap htbl a).symm)

theorem execDispatch_withCaps {s : State} (hslot : ∀ a, (s.withCaps c k).userSlot a = s.userSlot a)
    (frame : List Byte) :
    execDispatch frame (s.withCaps c k) = mapNext (·.withCaps c k) (execDispatch frame s) := by
  rcases Nat.lt_or_ge frame.length s.cfgAlen.toNat with hrunt | hlen
  · rw [execDispatch_of_runt hrunt, execDispatch_of_runt (s := s.withCaps c k) hrunt]
    exact raiseError_withCaps c k _ s
  · cases hf : addrFits s.build (decodeAddress frame s.cfgAlen.toNat s.cfgAfac.toNat) with
    | true =>
      rw [execDispatch_of_fits hlen hf, execDispatch_of_fits (s := s.withCaps c k) hlen hf]
      exact resolve_withCaps c k (hslot _) _
    | false =>
      rw [execDispatch_of_overflow hlen hf, execDispatch_of_overflow (s := s.withCaps c k) hlen hf]
      rfl

end

/-! ## Operations that grow -/

/-- In a state of the invariant a slot is occupied when it is listed, whatever the slot count (R35). -/
theorem Inv.userSlot_eq {s : State} (h : Inv s) (a : Nat) : s.userSlot a = s.tbl.contains a := by
  rw [Bool.eq_iff_iff, userSlot_iff, List.contains_iff_mem]
  exact ⟨fun ⟨_, hmem⟩ => hmem, fun hmem => ⟨h.table a hmem, hmem⟩⟩

/-- Registering changes the table's slot count and occupies one slot (R190). -/
theorem Inv.registerSlot_eq {s : State} (h : Inv s) (a : Nat) :
    ∃ k, s.registerSlot a = (s.occupy a).withCaps s.rxCap k := by
  rcases Nat.lt_or_ge a s.tblCap with hin | hout
  · exact ⟨s.tblCap, State.registerSlot_of_lt hin⟩
  · refine ⟨(s.growTable a).tblCap, (State.registerSlot_of_le hout).trans ?_⟩
    rw [State.occupy, h.growTable_tbl]
    rfl

/-- Without a finite `BUF_CAP_MAX` an append always stores. -/
theorem Inv.bufAppend_eq {s : State} (h : Inv s) (hmax : s.build.bufCapMax = none) (b : Byte) :
    ∃ c, bufAppend b s = .next ((s.store b).withCaps c s.tblCap) :=
  bufAppend_stores h (fun _ => by rw [capAllowed, hmax]) b

section

variable {s : State} {c k : Nat} (hs : Inv s) (ht : Inv (s.withCaps c k))
include hs ht

theorem userSlot_withCaps (a : Nat) : (s.withCaps c k).userSlot a = s.userSlot a :=
  (ht.userSlot_eq a).trans (hs.userSlot_eq a).symm

/-- STOP reads below both capacities and dispatches the same body. -/
theorem execRxStop_withCaps : execRxStop (s.withCaps c k) = mapNext (·.withCaps c k) (execRxStop s) := by
  by_cases hsize : s.rxBidx = s.rxMsize.toNat
  · rw [execRxStop_of_complete hsize hs.room, execRxStop_of_complete (s := s.withCaps c k) hsize ht.room]
    have hslot := userSlot_withCaps hs ht
    exact execDispatch_withCaps c k (s := s.clear.emit _) hslot _
  · rw [execRxStop_of_mismatch hsize hs.room, execRxStop_of_mismatch (s := s.withCaps c k) hsize ht.room]
    exact raiseError_withCaps c k _ s.clear

theorem bufAppend_sameOutcome (hmax : s.build.bufCapMax = none) (b : Byte) :
    SameOutcome (bufAppend b s) (bufAppend b (s.withCaps c k)) := by
  obtain ⟨d, hd⟩ := hs.bufAppend_eq hmax b
  obtain ⟨d', hd'⟩ := ht.bufAppend_eq hmax b
  rw [hd, hd']
  exact differInCapacity_withCaps (s.store b) ..

theorem execFeed_sameOutcome (hmax : s.build.bufCapMax = none) (b : Byte) :
    SameOutcome (execFeed b s) (execFeed b (s.withCaps c k)) := by
  have hknown : (s.withCaps c k).lenKnown = s.lenKnown := rfl
  unfold execFeed
  rw [hknown]
  split_ifs
  · exact differInCapacity_withCaps s.clear ..
  · rw [execRxStop_withCaps hs ht]
    exact sameOutcome_withCaps _ c k
  · exact bufAppend_sameOutcome hs ht hmax b
  · exact differInCapacity_withCaps (s.latch b) ..

/-- Each of the host's six transactions in other capacities. -/
theorem exec_decodeTx_sameOutcome (hmax : s.build.bufCapMax = none) (tx : HostTx) :
    SameOutcome (exec (decodeTx tx) s) (exec (decodeTx tx) (s.withCaps c k)) := by
  cases tx with
  | feed b => exact execFeed_sameOutcome hs ht hmax b
  | write a p =>
    rw [decodeTx, exec_write, exec_write, writeFrame_withCaps]
    exact sameOutcome_withCaps _ c k
  | register a =>
    obtain ⟨d, hd⟩ := hs.registerSlot_eq a
    obtain ⟨d', hd'⟩ := ht.registerSlot_eq a
    rw [decodeTx, exec_register, exec_register, hd, hd']
    exact differInCapacity_withCaps (s.occupy a) ..
  | setGeneric on => exact differInCapacity_withCaps (s.setGen on) ..
  | setErrcb => exact differInCapacity_withCaps s.setErr ..
  | reset => exact differInCapacity_withCaps s.resetAll ..

end

/-- Settles O59: the second state is the first in other capacities, with the same transaction pending. -/
theorem hiddenCapacitiesAreUnobservable : Obligations.HiddenCapacitiesAreUnobservable := by
  intro s t hs ht hmax hdiffer
  rw [differInCapacity_iff.mp hdiffer] at ht ⊢
  generalize t.rxCap = c at ht ⊢
  generalize t.tblCap = k at ht ⊢
  cases hin : s.hostIn with
  | nil =>
    rw [step_idle hin, step_idle (s := s.withCaps c k) hin]
    exact differInCapacity_withCaps s ..
  | cons tx later =>
    rw [step_pending hin, step_pending (s := s.withCaps c k) hin]
    exact exec_decodeTx_sameOutcome (hs.awaiting later) (ht.awaiting later) hmax tx

end Sys2Proof.Machine
end

section
/-! PROOFS of the codec's corners (42_address_codec.md R155 to R161): wide digits, the round trips, radix 0, and the
operands outside the domains. -/

namespace Sys2Proof.Machine

/-- Settles O28: in every state `ENCODE` returns the same field, in which each digit that a byte holds stands at its
index. -/
theorem wideDigitLeavesOnlyItsByteFree : Obligations.WideDigitLeavesOnlyItsByteFree := by
  intro a w f s _ hf
  exact ⟨s.answer (.bytes (encodeField a w f)), encodeField a w f, exec_encode_of_pos hf a w s, rfl,
    encodeField_length a w f, fun _ => encodeField_getElem?_toNat,
    fun u => ⟨u.answer _, exec_encode_of_pos hf a w u, rfl⟩, s.answer_frame _⟩

/-! ## The round trips (R159) -/

/-- The field that an `ENCODE` which ran returned. -/
theorem exec_encode_ret {a w f : Nat} {s t : State} {out : List Byte} (hf : 0 < f)
    (h : exec (.encode a w f) s = .next t) (hret : t.ret = some (.bytes out)) : out = encodeField a w f := by
  rw [exec_encode_of_pos hf] at h
  cases h
  cases hret
  rfl

/-- Every digit has a byte: in a radix up to 256, and where the digits happen to be small. -/
theorem encodeDigits_fits {a w f : Nat} (hf : 0 < f)
    (h : f ≤ 256 ∨ ∀ i, i < w → a / f ^ (w - 1 - i) % f < 256) : ∀ d ∈ encodeDigits a w f, d < 256 := by
  intro d hd
  obtain hle | hdigits := h
  · exact (encodeDigits_lt hf hd).trans_le hle
  · obtain ⟨i, hi, rfl⟩ := List.getElem_of_mem hd
    have hiw : i < w := by rwa [encodeDigits_length] at hi
    have hget := encodeDigits_getElem? a w f hiw
    rw [List.getElem?_eq_getElem hi] at hget
    exact (Option.some.inj hget).symm ▸ hdigits i hiw

/-- Decoding the field that `ENCODE` returned (R159). -/
theorem decodeAddress_of_encode {a w f : Nat} {s t : State} {out : List Byte} (hf : 0 < f)
    (hfits : f ≤ 256 ∨ ∀ i, i < w → a / f ^ (w - 1 - i) % f < 256) (h : exec (.encode a w f) s = .next t)
    (hret : t.ret = some (.bytes out)) : decodeAddress out w f = a % f ^ w := by
  have hdigits := encodeDigits_fits hf hfits
  rw [exec_encode_ret hf h hret, encodeField_of_fits hdigits, decodeAddress_digitBytes hdigits]

/-- A field of bytes below the radix is what `ENCODE` returns for the address it decodes to. -/
theorem encodeField_decodeAddress {out : List Byte} {w f : Nat} (hl : out.length = w) (h : ∀ b ∈ out, b.toNat < f) :
    encodeField (decodeAddress out w f) w f = out := by
  have hdigits := encodeDigits_decodeAddress hl h
  have hfits : ∀ d ∈ encodeDigits (decodeAddress out w f) w f, d < 256 := by
    rw [hdigits]
    intro d hd
    obtain ⟨b, -, rfl⟩ := List.mem_map.mp hd
    exact b.isLt
  rw [encodeField_of_fits hfits, hdigits, digitBytes, List.map_map]
  exact List.map_id'' (fun b => (BitVec.ofNat_toNat 8 b).trans b.setWidth_eq) out

/-- A byte of an encoded field is below the radix: a digit in a radix up to 256, and any byte in a larger one. -/
theorem toNat_lt_of_mem_encodeField {a w f : Nat} (hf : 0 < f) {b : Byte} (hb : b ∈ encodeField a w f) :
    b.toNat < f := by
  rcases Nat.lt_or_ge 256 f with hlarge | hsmall
  · exact b.isLt.trans hlarge
  · rw [encodeField_of_fits fun d hd => (encodeDigits_lt hf hd).trans_le hsmall] at hb
    obtain ⟨d, hd, rfl⟩ := List.mem_map.mp hb
    exact (BitVec.toNat_ofNat d 8 ▸ Nat.mod_le d _).trans_lt (encodeDigits_lt hf hd)

/-- Settles O31: decoding undoes encoding modulo `f^w`, and the bytes of a field that `ENCODE` returned lie below the
radix. -/
theorem codecRoundTrips : Obligations.CodecRoundTrips := by
  refine ⟨fun a w f s t out hf hfits h hret => decodeAddress_of_encode hf hfits h hret,
    fun a w r s t out hr ha hfits h hret => ?fits, fun out w f s hf hl => ⟨?below, ?returned⟩⟩
  case fits => rw [decodeAddress_of_encode (by omega) hfits h hret, Nat.mod_eq_of_lt ha]
  case below =>
    rintro ⟨t, h, hret⟩ b hb
    rw [exec_encode_ret hf h hret] at hb
    exact toNat_lt_of_mem_encodeField hf hb
  case returned =>
    intro hbytes
    refine ⟨_, exec_encode_of_pos hf _ w s, ?_⟩
    rw [State.answer_ret, encodeField_decodeAddress hl hbytes]

/-! ## Radix 0 (R161) and the domains (log 7) -/

/-- In radix 0 every weight but the last is 0. -/
theorem decodeAddress_radix_zero {bytes : List Byte} {w : Nat} (h1 : 1 ≤ w) (hl : w ≤ bytes.length) :
    decodeAddress bytes w 0 = (bytes.getD (w - 1) 0).toNat := by
  obtain ⟨n, rfl⟩ := Nat.exists_eq_add_of_le' h1
  rw [decodeAddress_succ hl, Nat.mul_zero, Nat.zero_add, Nat.add_sub_cancel]

/-- Settles O33. -/
theorem radixZeroDecodesTheLastByte : Obligations.RadixZeroDecodesTheLastByte := by
  refine ⟨fun bytes w s h1 hl hf => ?decode, exec_encode_radix_zero⟩
  case decode =>
    rw [← decodeAddress_radix_zero h1 hl] at hf ⊢
    exact ⟨_, exec_decode_of_fits hl hf, rfl⟩

theorem exec_decode_of_short {bytes : List Byte} {w : Nat} (h : bytes.length < w) (f : Nat) (s : State) :
    exec (.decode bytes w f) s = .refused .shortField := if_pos h

/-- With enough bytes `DECODE` answers a next state or the fault of `ADDR_W`, never a refusal. -/
theorem exec_decode_not_refused {bytes : List Byte} {w : Nat} (h : w ≤ bytes.length) (f : Nat) (s : State)
    (r : Refusal) : exec (.decode bytes w f) s ≠ .refused r := by
  cases hf : addrFits s.build (decodeAddress bytes w f) with
  | true => simp [exec_decode_of_fits h hf]
  | false => simp [exec_decode, withDecoded_of_overflow h hf]

/-- Settles O35: `DECODE` splits at the width, `ENCODE` at radix 0. -/
theorem shortFieldIsRefusedAndRadixZeroFaults : Obligations.ShortFieldIsRefusedAndRadixZeroFaults := by
  refine ⟨fun bytes w f s => ⟨fun h => ?short, fun h => exec_decode_of_short h f s⟩, fun bytes w f s r h => ?named,
    fun a w f s => ?encode⟩
  case short => exact Nat.lt_of_not_le fun hl => exec_decode_not_refused hl f s _ h
  case named =>
    rcases Nat.lt_or_ge bytes.length w with hshort | hl
    · rw [exec_decode_of_short hshort] at h
      cases h
      rfl
    · exact absurd h (exec_decode_not_refused hl f s r)
  case encode =>
    rcases Nat.eq_zero_or_pos f with rfl | hf
    · rw [exec_encode_radix_zero]
      simp
    · rw [exec_encode_of_pos hf]
      simp [hf.ne']

end Sys2Proof.Machine
end
